-- ==== Sys2Proof/Word.lean ====
section
/-! DEFINITION. The word types of the cunoVM CORE (spec 00_scope R7, R8, R17; 30_encoding R80). -/

namespace Sys2Proof

/-- An `i16`: a 16-bit pattern read as a signed two's-complement number by `BitVec.toInt`
(00_scope R7, R17). Operand-stack entries, entries of G, the PUSH literal and the HALT code. -/
abbrev Value := BitVec 16

/-- A `u16`: an unsigned 16-bit address or index (00_scope R8, R17). Instruction pointers,
jump and call targets, global indices, PROG_LEN and ENTRY. -/
abbrev Idx := BitVec 16

/-- One 32-bit instruction word (30_encoding R80). -/
abbrev IWord := BitVec 32

/-- `bits16(v)` read back as an `i16`: the value of a mathematical integer modulo 65536
(00_scope R17, `wrap16`). -/
abbrev wrap16 (x : Int) : Value := BitVec.ofInt 16 x

end Sys2Proof
end

