-- ==== Sys2Proof/Config.lean ====
section
/-! DEFINITION. What is fixed for one engine (00_scope R10, R11, R13, R14, R15; 10_state R31)
and the free values of the host's unspecified reads (93_implementation_defined U11, U12). -/

namespace Sys2Proof

/-- OVERFLOW_MODE (00_scope R14): what ADD, SUB and MUL do when the exact result is no `i16`. -/
inductive OverflowMode where
  | wrap
  | fault
  deriving DecidableEq, Repr

/-- The configuration parameters of an engine (00_scope R15). They are plain data, so that a
statement about every state is a statement about every configuration (log entry 1). -/
structure Config where
  /-- OPSTACK_CAP, 00_scope R10. -/
  opstackCap : Nat
  /-- CALLSTACK_CAP, 00_scope R11. -/
  callstackCap : Nat
  /-- UNIFORM_PRECHECK, 00_scope R13. -/
  uniformPrecheck : Bool
  /-- OVERFLOW_MODE, 00_scope R14. -/
  overflowMode : OverflowMode
  deriving DecidableEq, Repr

/-- The reference configuration (00_scope R15). -/
def Config.reference : Config where
  opstackCap := 65534
  callstackCap := 65534
  uniformPrecheck := false
  overflowMode := .wrap

/-- FREE VALUE (log entry 9, 93_implementation_defined U11 and U12): what the n-th host read with
an unspecified result returns. Nothing in Lean can evaluate it. -/
opaque Config.freeWord : Nat → BitVec 32

end Sys2Proof
end

