-- ==== Sys2Proof/Syntax.lean ====
section
/-! DEFINITION. The closed set of 22 opcodes with their operands (00_scope R2; 30_encoding R81,
R84; opcode_table.json). -/

namespace Sys2Proof

/-- One instruction, one constructor per row of the opcode table, in its order. A lit operand is
an `i16` and an addr operand a `u16` (30_encoding R82): the types admit every operand the encoding
admits and no other. -/
inductive Instr where
  | add
  | sub
  | mul
  | div
  | mod
  | not
  | or
  | and
  | eq
  | gt
  | gte
  | jmp (addr : Idx)
  | jmpif (addr : Idx)
  | pop
  | push (v : Value)
  | store (addr : Idx)
  | load (addr : Idx)
  | call (addr : Idx)
  | ret
  | retval
  | out
  | halt (code : Value)
  deriving DecidableEq, Repr

end Sys2Proof
end

