-- ==== Sys2Proof/WellFormed.lean ====
section
/-! DEFINITION. The checks on what the outside supplies: an instruction as an assembly listing
writes it (30_encoding R81, R82, R88) and a configuration (00_scope R15). Every term of `Instr`
itself is well formed: its operand types hold exactly the operands the encoding admits. -/

namespace Sys2Proof

/-- The operand classes of 30_encoding R81. -/
inductive OperandClass where
  /-- no operand -/
  | none
  /-- a signed 16-bit literal -/
  | lit
  /-- an unsigned 16-bit address or index -/
  | addr
  deriving DecidableEq, Repr

/-- The mnemonics of 30_encoding R84. -/
inductive Mnemonic where
  | add
  | sub
  | mul
  | div
  | mod
  | not
  | or
  | and
  | eq
  | gt
  | gte
  | jmp
  | jmpif
  | pop
  | push
  | store
  | load
  | call
  | ret
  | retval
  | out
  | halt
  deriving DecidableEq, Repr

/-- The class a mnemonic's operand must have (30_encoding R81, R84). -/
def Mnemonic.operandClass : Mnemonic → OperandClass
  | .jmp | .jmpif | .store | .load | .call => .addr
  | .push | .halt => .lit
  | .add | .sub | .mul | .div | .mod | .not | .or | .and | .eq | .gt | .gte
  | .pop | .ret | .retval | .out => .none

/-- An operand as a listing writes it (30_encoding R88). -/
inductive SourceOperand where
  /-- a decimal, with a minus sign or without -/
  | decimal (negative : Bool) (magnitude : Nat)
  /-- a hexadecimal `0x…` -/
  | hex (pattern : Nat)
  /-- a label -/
  | label (name : List Char)
  deriving DecidableEq, Repr

/-- An instruction as a listing writes it (30_encoding R88). -/
structure SourceInstr where
  mnemonic : Mnemonic
  operand : Option SourceOperand
  deriving DecidableEq, Repr

/-- Whether an operand is in range for a class (30_encoding R88): a lit operand is a signed decimal
in -32768..32767 or a 16-bit pattern, an addr operand an unsigned decimal in 0..65535, a 16-bit
hexadecimal or a label. -/
def SourceOperand.inRange : OperandClass → SourceOperand → Bool
  | .lit, .decimal true n => n ≤ 32768
  | .lit, .decimal false n => n ≤ 32767
  | .lit, .hex p => p ≤ 0xFFFF
  | .lit, .label _ => false
  | .addr, .decimal true _ => false
  | .addr, .decimal false n => n ≤ 65535
  | .addr, .hex p => p ≤ 0xFFFF
  | .addr, .label _ => true
  | .none, _ => false

/-- What is wrong with an instruction of a listing (30_encoding R88). -/
inductive SourceError where
  | missingOperand
  | strayOperand
  | outOfRange
  deriving DecidableEq, Repr

/-- The three assembly errors of 30_encoding R88: a missing operand, an operand on a class-none
opcode, an operand out of range. `none` says the instruction is well formed. -/
def SourceInstr.error? (i : SourceInstr) : Option SourceError :=
  match i.mnemonic.operandClass, i.operand with
  | .none, none => none
  | .none, some _ => some .strayOperand
  | _, none => some .missingOperand
  | c, some o => if o.inRange c then none else some .outOfRange

/-- Whether an instruction of a listing is well formed (30_encoding R88). -/
def SourceInstr.wellFormed (i : SourceInstr) : Bool := i.error?.isNone

/-- Whether a configuration can hold the one frame START seeds (10_state R33, 70 R233; DEDUCED, log
entry 2). -/
def Config.wellFormed (c : Config) : Bool := decide (1 ≤ c.callstackCap)

end Sys2Proof
end

