-- ==== Sys2Proof/Decode.lean ====
section
/-! DEFINITION. The instruction word: fields, decoder and encoder (30_encoding R80 to R87) and the
little-endian byte serialisation (20_memory R63). -/

namespace Sys2Proof

/-- Why a word is ILLEGAL (30_encoding R86). -/
inductive Illegal where
  /-- opcode 0x00 or 0x17..0xFF -/
  | reservedOpcode (op : BitVec 8)
  /-- `rsv` is not 0 -/
  | reservedBits (rsv : BitVec 8)
  /-- a class-none opcode with an immediate that is not 0 -/
  | strayImmediate (imm : BitVec 16)
  /-- a byte stream that ends inside a word (20_memory R63: a word is four bytes) -/
  | truncated
  deriving DecidableEq, Repr

/-- `w[31:24]`, the opcode field (30_encoding R80). -/
def opField (w : IWord) : BitVec 8 := w.extractLsb' 24 8

/-- `w[23:16]`, the reserved field (30_encoding R80). -/
def rsvField (w : IWord) : BitVec 8 := w.extractLsb' 16 8

/-- `w[15:0]`, the immediate field (30_encoding R80). -/
def immField (w : IWord) : BitVec 16 := w.extractLsb' 0 16

/-- A lit operand: `sext_16` of the immediate, an `i16` (30_encoding R82). -/
def litOperand (imm : BitVec 16) : Value := imm

/-- An addr operand: `zext_16` of the immediate, a `u16` (30_encoding R82). -/
def addrOperand (imm : BitVec 16) : Idx := imm

/-- What an opcode selects: an instruction of class none, or one that takes the immediate. -/
def decodeOpcode (op : BitVec 8) : Option (Instr ⊕ (BitVec 16 → Instr)) :=
  match op.toNat with
  | 0x01 => some (.inl .add)
  | 0x02 => some (.inl .sub)
  | 0x03 => some (.inl .mul)
  | 0x04 => some (.inl .div)
  | 0x05 => some (.inl .mod)
  | 0x06 => some (.inl .not)
  | 0x07 => some (.inl .or)
  | 0x08 => some (.inl .and)
  | 0x09 => some (.inl .eq)
  | 0x0A => some (.inl .gt)
  | 0x0B => some (.inl .gte)
  | 0x0C => some (.inr fun imm => .jmp (addrOperand imm))
  | 0x0D => some (.inr fun imm => .jmpif (addrOperand imm))
  | 0x0E => some (.inl .pop)
  | 0x0F => some (.inr fun imm => .push (litOperand imm))
  | 0x10 => some (.inr fun imm => .store (addrOperand imm))
  | 0x11 => some (.inr fun imm => .load (addrOperand imm))
  | 0x12 => some (.inr fun imm => .call (addrOperand imm))
  | 0x13 => some (.inl .ret)
  | 0x14 => some (.inl .retval)
  | 0x15 => some (.inl .out)
  | 0x16 => some (.inr fun imm => .halt (litOperand imm))
  | _ => none

/-- `Decode(w)` of 30_encoding R85, its checks in R85's order: one instruction or a named reason
why the word is ILLEGAL. -/
def decode (w : IWord) : Except Illegal Instr :=
  match decodeOpcode (opField w) with
  | none => .error (.reservedOpcode (opField w))
  | some shape =>
    if rsvField w ≠ 0 then .error (.reservedBits (rsvField w))
    else
      match shape with
      | .inl i => if immField w ≠ 0 then .error (.strayImmediate (immField w)) else .ok i
      | .inr mk => .ok (mk (immField w))

/-- The opcode value of 30_encoding R84. -/
def opcodeOf : Instr → BitVec 8
  | .add => 0x01
  | .sub => 0x02
  | .mul => 0x03
  | .div => 0x04
  | .mod => 0x05
  | .not => 0x06
  | .or => 0x07
  | .and => 0x08
  | .eq => 0x09
  | .gt => 0x0A
  | .gte => 0x0B
  | .jmp _ => 0x0C
  | .jmpif _ => 0x0D
  | .pop => 0x0E
  | .push _ => 0x0F
  | .store _ => 0x10
  | .load _ => 0x11
  | .call _ => 0x12
  | .ret => 0x13
  | .retval => 0x14
  | .out => 0x15
  | .halt _ => 0x16

/-- The operand class of 30_encoding R81. -/
def classOf : Instr → OperandClass
  | .jmp _ | .jmpif _ | .store _ | .load _ | .call _ => .addr
  | .push _ | .halt _ => .lit
  | .add | .sub | .mul | .div | .mod | .not | .or | .and | .eq | .gt | .gte
  | .pop | .ret | .retval | .out => .none

/-- The pattern `p` of 30_encoding R87: `bits16` of a lit operand, the `u16` of an addr operand,
0x0000 for class none. -/
def immOf : Instr → BitVec 16
  | .jmp a | .jmpif a | .store a | .load a | .call a => a
  | .push v | .halt v => v
  | .add | .sub | .mul | .div | .mod | .not | .or | .and | .eq | .gt | .gte
  | .pop | .ret | .retval | .out => 0

/-- `Encode` of 30_encoding R87: `{op, 0x00, p}`. -/
def encode (i : Instr) : IWord := opcodeOf i ++ (0x00 : BitVec 8) ++ immOf i

/-- The bytes of a word, least significant first (20_memory R63). -/
def bytesOfWord (w : IWord) : List (BitVec 8) :=
  [w.extractLsb' 0 8, w.extractLsb' 8 8, w.extractLsb' 16 8, w.extractLsb' 24 8]

/-- The word of four bytes, the first the least significant (20_memory R63). -/
def wordOfBytes (b0 b1 b2 b3 : BitVec 8) : IWord := b3 ++ b2 ++ b1 ++ b0

/-- The bytes of a 16-bit value, least significant first (20_memory R63). -/
def bytesOfValue (v : BitVec 16) : List (BitVec 8) := [v.extractLsb' 0 8, v.extractLsb' 8 8]

/-- Decodes the next instruction of a byte stream, little-endian (20_memory R63), with the rest. -/
def decodeBytes : List (BitVec 8) → Except Illegal (Instr × List (BitVec 8))
  | b0 :: b1 :: b2 :: b3 :: rest =>
    match decode (wordOfBytes b0 b1 b2 b3) with
    | .ok i => .ok (i, rest)
    | .error e => .error e
  | _ => .error .truncated

/-- The word that the low `nbits` bits of `w` make, every bit above them 0. -/
def tableWord (nbits w : Nat) : IWord := BitVec.ofNat 32 (w % 2 ^ nbits)

/-- The host's probe: the instruction the decoder reads from the word whose low `nbits` bits are
`w` and whose other bits are 0, laid out as four little-endian bytes. -/
def decodeTableWord (nbits w : Nat) : Option Instr :=
  match decodeBytes (bytesOfWord (tableWord nbits w)) with
  | .ok (i, _) => some i
  | .error _ => none

end Sys2Proof
end

