-- ==== Sys2Proof/Machine/State.lean ====
section
/-! DEFINITION. The architectural state of the engine (10_state R30 to R47), its reset value (R46)
and the reasons a step can stop. -/

namespace Sys2Proof.Machine

/-- ENGINE_STATE (10_state R40). The encodings 5..7 are never entered and are not representable
(93_implementation_defined U14, log entry 12). -/
inductive EngineState where
  | idle
  | paused
  | running
  | halted
  | faulted
  deriving DecidableEq, Repr

/-- The values of FAULT_CAUSE (60_exceptions R200). The codes 0x0B..0xFF are never written and are
not representable (93_implementation_defined U14, log entry 12). -/
inductive FaultCause where
  | none
  | insufficientOperands
  | operandUnderflow
  | operandOverflow
  | callOverflow
  | emptyCallStack
  | invalidIp
  | illegalInstruction
  | divideByZero
  | divideOverflow
  | arithOverflow
  deriving DecidableEq, Repr

/-- The kind of an output event (45_output_halt R180). -/
inductive EventKind where
  | out
  | halt
  deriving DecidableEq, Repr

/-- One event of the output channel (45_output_halt R180). -/
structure OutEvent where
  kind : EventKind
  value : Value
  deriving DecidableEq, Repr

/-- A frame (10_state R34): its operand stack, top first (10_state R47), and its instruction
pointer. -/
structure Frame where
  stack : List Value
  ip : Idx
  deriving DecidableEq, Repr

/-- The state of 10_state R30, with the engine's parameters beside it (R31; log entry 1). -/
structure State where
  /-- The parameters of this engine. Nothing writes them. -/
  cfg : Config
  /-- IMEM: the words the host has written since reset, by index, strictly rising; an unlisted
  index holds no value (10_state R46; log entry 3). -/
  imem : List (Nat × BitVec 32)
  /-- PROG_LEN (00_scope R12). -/
  progLen : Idx
  /-- ENTRY (00_scope R12). -/
  entry : Idx
  /-- CS, the current frame first (10_state R33, R47). -/
  cs : List Frame
  /-- G: the entries that are not 0, by index, strictly rising (10_state R36; log entry 3). -/
  g : List (Nat × BitVec 16)
  /-- HALTED (10_state R38). -/
  halted : Bool
  /-- ENGINE_STATE (10_state R40). -/
  estate : EngineState
  /-- FAULT_CAUSE (10_state R41). -/
  faultCause : FaultCause
  /-- FAULT_IP (10_state R41). -/
  faultIp : Idx
  /-- FAULT_IPV (10_state R41). -/
  faultIpv : Bool
  /-- HALT_CODE (10_state R42). -/
  haltCode : Value
  /-- OUT_LOG, oldest event first (10_state R43). -/
  outLog : List OutEvent
  /-- The model's own: how many unspecified host reads have been answered (log entry 9). -/
  draws : Nat
  deriving DecidableEq, Repr

/-- Where the model stops because nothing steps or nothing is there. None of these is a fault of the
spec's 60_exceptions R200: those are ENTERED, as next states. All are safe. -/
inductive Fault where
  /-- A step was asked for in IDLE, where the engine takes none (40_dispatch R100). Raised by
  `step`. Safe: nothing is said of a step that does not exist. -/
  | engineIdle
  /-- A step was asked for in PAUSED without a STEP command (40_dispatch R100). Raised by `step`.
  Safe. -/
  | enginePaused
  /-- A step was asked for in HALTED, which takes none (40_dispatch R100, R112). Raised by `step`.
  Safe. -/
  | engineHalted
  /-- A step was asked for in FAULTED, which takes none (40_dispatch R100; 60_exceptions R203).
  Raised by `step`. Safe. -/
  | engineFaulted
  /-- The host read a place that does not exist: IMEM index 65535, a frame at or past |CS|, or a
  stack entry at or past the stack's length (20_memory R61; 70 R237; log entry 11). Raised by the
  host's port reads only. Safe. -/
  | noSuchPlace
  deriving DecidableEq, Repr

/-- What the model gives no meaning. -/
inductive Refusal where
  /-- An instruction without a meaning yet; no arm of `exec` answers so in this model. Safe. -/
  | notModelled (mnemonic : String)
  /-- The launch of a program with a word the host has not written since reset, or the fetch of such
  a word (70 R240; 93_implementation_defined U10; log entry 4). Raised by START and by the fetch.
  Safe: the spec says to refuse and never to guess the word. -/
  | unwrittenWord (index : Idx)
  deriving DecidableEq, Repr

/-- The state after reset (10_state R46) of an engine with the parameters `c`. -/
def State.resetWith (c : Config) (draws : Nat) : State where
  cfg := c
  imem := []
  progLen := 0
  entry := 0
  cs := []
  g := []
  halted := false
  estate := .idle
  faultCause := .none
  faultIp := 0
  faultIpv := false
  haltCode := 0
  outLog := []
  draws := draws

/-- The machine right after reset, in the reference configuration (10_state R46; 00_scope R15;
log entry 1). `draws` is DESIGN CHOICE 0 (log entry 9). -/
def State.reset : State := State.resetWith Config.reference 0

end Sys2Proof.Machine
end

