-- ==== Sys2Proof/Machine/Ops.lean ====
section
/-! DEFINITION. The named operations over the state: the two memories (20_memory R60 to R62), the
call stack (40_dispatch R101, R104, R108, R109), the output channel (45_output_halt R180) and fault
entry (60_exceptions R203). The engine has no return from a fault (60_exceptions R205). -/

namespace Sys2Proof.Machine

/-! ### Word memories -/

/-- The value listed at an index. -/
def cellsGet {w : Nat} : List (Nat × BitVec w) → Nat → Option (BitVec w)
  | [], _ => none
  | c :: cells, a => if a = c.1 then some c.2 else cellsGet cells a

/-- Lists a value at an index, keeping the indices rising. -/
def cellsSet {w : Nat} : List (Nat × BitVec w) → Nat → BitVec w → List (Nat × BitVec w)
  | [], a, v => [(a, v)]
  | c :: cells, a, v =>
    if a < c.1 then (a, v) :: c :: cells
    else if a = c.1 then (a, v) :: cells
    else c :: cellsSet cells a v

/-- Takes an index off the list. -/
def cellsErase {w : Nat} (cells : List (Nat × BitVec w)) (a : Nat) : List (Nat × BitVec w) :=
  cells.filter fun c => decide (c.1 ≠ a)

/-- The canonical form of a list of cells: indices strictly rising and below `bound`. -/
abbrev cellsWf {w : Nat} (bound : Nat) (cells : List (Nat × BitVec w)) : Prop :=
  (cells.map Prod.fst).Pairwise (· < ·) ∧ ∀ c ∈ cells, c.1 < bound

/-- The canonical form of the two memories: IMEM lists indices 0..65534 (20_memory R61) and G
indices 0..65535 and no entry that is 0, since an unlisted entry reads 0 (10_state R36). -/
abbrev Memory.wf (s : State) : Prop :=
  cellsWf 65535 s.imem ∧ cellsWf 65536 s.g ∧ ∀ c ∈ s.g, c.2 ≠ 0

/-- `MemRead(a, 1)`: G[a] (20_memory R62). An entry nothing has written since reset reads 0
(10_state R36). -/
def globalRead (s : State) (a : Idx) : Value := (cellsGet s.g a.toNat).getD 0

/-- `MemWrite(a, 1, v)`: G[a] <- v (20_memory R62). Writing 0 takes the entry off the list. -/
def State.globalWrite (s : State) (a : Idx) (v : Value) : State :=
  { s with g := if v = 0 then cellsErase s.g a.toNat else cellsSet s.g a.toNat v }

/-- The word IMEM holds at an index, or `none` where the host has written none since reset
(10_state R46). -/
def imemWord (s : State) (i : Idx) : Option IWord := cellsGet s.imem i.toNat

/-- The host's write of one instruction word (70 R232). -/
def State.imemWrite (s : State) (i : Idx) (w : IWord) : State :=
  { s with imem := cellsSet s.imem i.toNat w }

/-- `Fetch(i)`, defined only for i < PROG_LEN (20_memory R61). -/
def fetchWord (s : State) (i : Idx) : Option IWord :=
  if i < s.progLen then imemWord s i else none

/-! ### The call stack -/

/-- Puts a call stack in place. -/
def State.setCs (s : State) (cs : List Frame) : State := { s with cs := cs }

/-- `cpush(CS, F)` (40_dispatch R108). -/
def cpush (cfg : Config) (cs : List Frame) (f : Frame) : Except FaultCause (List Frame) :=
  if cs.length = cfg.callstackCap then .error .callOverflow else .ok (f :: cs)

/-- `cpop(CS)` (40_dispatch R109). -/
def cpop : List Frame → Except FaultCause (Frame × List Frame)
  | [] => .error .emptyCallStack
  | f :: cs => .ok (f, cs)

/-- The one-step advance of an instruction pointer (40_dispatch R104). -/
def Frame.advance (f : Frame) : Frame := { f with ip := f.ip + 1 }

/-- Reinserts the frame the step took off CS. It cannot overflow: the frame came from there in the
same step (40_dispatch R104; log entry 7). -/
def reinsert (s : State) (f : Frame) (rest : List Frame) : State := s.setCs (f :: rest)

/-- `complete(F)`: advance the pointer by one and reinsert the frame (40_dispatch R104). -/
def complete (s : State) (f : Frame) (rest : List Frame) : State := reinsert s f.advance rest

/-! ### The output channel -/

/-- `emit(kind, v)`: one event at the end of OUT_LOG (45_output_halt R180). -/
def State.emit (s : State) (kind : EventKind) (v : Value) : State :=
  { s with outLog := s.outLog ++ [⟨kind, v⟩] }

/-! ### Fault entry -/

/-- The code FAULT_CAUSE shows for a cause (60_exceptions R200). -/
def causeCode : FaultCause → BitVec 8
  | .none => 0x00
  | .insufficientOperands => 0x01
  | .operandUnderflow => 0x02
  | .operandOverflow => 0x03
  | .callOverflow => 0x04
  | .emptyCallStack => 0x05
  | .invalidIp => 0x06
  | .illegalInstruction => 0x07
  | .divideByZero => 0x08
  | .divideOverflow => 0x09
  | .arithOverflow => 0x0A

/-- Fault entry (60_exceptions R203, R202), applied to the state at the start of the faulting step:
`ip` is the current frame's pointer, or `none` where the step had no current frame. -/
def State.raise (s : State) (cause : FaultCause) (ip : Option Idx) : State :=
  { s with
    faultCause := cause
    faultIp := ip.getD 0
    faultIpv := ip.isSome
    estate := .faulted }

/-! ### One instruction over the current frame -/

/-- Runs the body of an instruction over the current frame and the frames beneath it (40_dispatch
R101), atomically (R105): either the body's whole effect happens, or the state at the start of the
step takes the fault the body met first. -/
def withFrame (s : State) (body : Frame → List Frame → Except FaultCause State) :
    Host.Outcome State Fault Refusal :=
  match s.cs with
  | [] => .next (s.raise .emptyCallStack none)
  | f :: rest =>
    match body f rest with
    | .ok t => .next t
    | .error cause => .next (s.raise cause (some f.ip))

end Sys2Proof.Machine
end

