-- ==== Sys2Proof/Machine/Flags.lean ====
section
/-! DEFINITION. The engine has no condition codes (10_state R39): what stands here is its one flag,
HALTED (10_state R38), the 0/1 results that take the flags' place (00_scope R21), and the overflow
law of ADD, SUB and MUL (41_alu R121). -/

namespace Sys2Proof.Machine

/-- A Boolean result: 1 for true, 0 for false (00_scope R21). -/
def boolValue (p : Bool) : Value := if p then 1 else 0

/-- A value read as a condition: true when it is not zero (00_scope R21). -/
def isNonzero (v : Value) : Bool := decide (v ≠ 0)

/-- Whether an exact result is an `i16` (00_scope R7). -/
def inI16 (x : Int) : Bool := decide (-32768 ≤ x ∧ x ≤ 32767)

/-- `res16(x)`: what becomes of the exact result of ADD, SUB and MUL (41_alu R121). -/
def res16 (cfg : Config) (x : Int) : Except FaultCause Value :=
  match cfg.overflowMode with
  | .wrap => .ok (wrap16 x)
  | .fault => if inI16 x then .ok (wrap16 x) else .error .arithOverflow

/-- The writes of HALT beside the output event: HALTED, HALT_CODE and ENGINE_STATE
(45_output_halt R181). -/
def State.setHalted (s : State) (code : Value) : State :=
  { s with halted := true, haltCode := code, estate := .halted }

end Sys2Proof.Machine
end

