-- ==== Sys2Proof/Machine/Operands.lean ====
section
/-! DEFINITION. The operand forms: the operand stack of the current frame (40_dispatch R106, R107,
R110; 30_encoding R83; 00_scope R20). The immediate forms are in Decode.lean. -/

namespace Sys2Proof.Machine

/-- `opop(F)` (40_dispatch R106). -/
def opop (f : Frame) : Except FaultCause (Value × Frame) :=
  match f.stack with
  | [] => .error .operandUnderflow
  | v :: stack => .ok (v, { f with stack := stack })

/-- `opush(F, v)` (40_dispatch R107). -/
def opush (cfg : Config) (f : Frame) (v : Value) : Except FaultCause Frame :=
  if f.stack.length = cfg.opstackCap then .error .operandOverflow
  else .ok { f with stack := v :: f.stack }

/-- `need(F, k)` (40_dispatch R110). -/
def need (f : Frame) (k : Nat) : Except FaultCause Unit :=
  if f.stack.length < k then .error .insufficientOperands else .ok ()

/-- The pre-check of JMPIF, POP, STORE, OUT and RETVAL: `need(F, 1)` only under UNIFORM_PRECHECK
(40_dispatch R110; 00_scope R13). -/
def precheck (cfg : Config) (f : Frame) : Except FaultCause Unit :=
  if cfg.uniformPrecheck then need f 1 else .ok ()

/-- One operand by the unchecked forms: the pre-check where the configuration has it, then the pop
(42_jump R151; 43 R160, R162; 44 R172; 45 R180). -/
def popOperand (cfg : Config) (f : Frame) : Except FaultCause (Value × Frame) := do
  precheck cfg f
  opop f

/-- A binary ALU opcode: pre-check 2, pop `a` (the top) and `b` (the next), push `f(a, b)`, complete
(41_alu R120). -/
def aluBinary (s : State) (op : Value → Value → Except FaultCause Value) :
    Host.Outcome State Fault Refusal :=
  withFrame s fun f rest => do
    need f 2
    let (a, f) ← opop f
    let (b, f) ← opop f
    let r ← op a b
    let f ← opush s.cfg f r
    return complete s f rest

/-- A unary ALU opcode: pre-check 1, pop `a`, push `f(a)`, complete (41_alu R120). -/
def aluUnary (s : State) (op : Value → Value) : Host.Outcome State Fault Refusal :=
  withFrame s fun f rest => do
    need f 1
    let (a, f) ← opop f
    let f ← opush s.cfg f (op a)
    return complete s f rest

end Sys2Proof.Machine
end

