-- ==== Sys2Proof/Machine/Alu.lean ====
section
/-! DEFINITION. ADD, SUB, MUL, DIV, MOD, NOT, OR, AND, EQ, GT and GTE (41_alu R120 to R134). `a` is
the top of the operand stack and `b` the next (00_scope R20). -/

namespace Sys2Proof.Machine

/-- The two checks DIV and MOD make before they compute, in their order (41_alu R125, R126). -/
def divCheck (a b : Value) : Except FaultCause Unit :=
  if b = 0 then .error .divideByZero
  else if a.toInt = -32768 ∧ b.toInt = -1 then .error .divideOverflow
  else .ok ()

/-- `trunc(a / b)`: the quotient rounded toward zero (00_scope R17). -/
def truncQuot (a b : Value) : Int := Int.tdiv a.toInt b.toInt

/-- ADD (41_alu R122). -/
def execAdd (s : State) : Host.Outcome State Fault Refusal :=
  aluBinary s fun a b => res16 s.cfg (a.toInt + b.toInt)

/-- SUB: top minus next (41_alu R123). -/
def execSub (s : State) : Host.Outcome State Fault Refusal :=
  aluBinary s fun a b => res16 s.cfg (a.toInt - b.toInt)

/-- MUL (41_alu R124). -/
def execMul (s : State) : Host.Outcome State Fault Refusal :=
  aluBinary s fun a b => res16 s.cfg (a.toInt * b.toInt)

/-- DIV: top divided by next (41_alu R125). -/
def execDiv (s : State) : Host.Outcome State Fault Refusal :=
  aluBinary s fun a b => do
    divCheck a b
    return wrap16 (truncQuot a b)

/-- MOD: top modulo next (41_alu R126). -/
def execMod (s : State) : Host.Outcome State Fault Refusal :=
  aluBinary s fun a b => do
    divCheck a b
    return wrap16 (a.toInt - b.toInt * truncQuot a b)

/-- NOT: logical negation (41_alu R127). -/
def execNot (s : State) : Host.Outcome State Fault Refusal :=
  aluUnary s fun a => boolValue (!isNonzero a)

/-- OR: logical or (41_alu R128). -/
def execOr (s : State) : Host.Outcome State Fault Refusal :=
  aluBinary s fun a b => return boolValue (isNonzero a || isNonzero b)

/-- AND: logical and (41_alu R129). -/
def execAnd (s : State) : Host.Outcome State Fault Refusal :=
  aluBinary s fun a b => return boolValue (isNonzero a && isNonzero b)

/-- EQ (41_alu R130). -/
def execEq (s : State) : Host.Outcome State Fault Refusal :=
  aluBinary s fun a b => return boolValue (decide (a = b))

/-- GT: is the top greater than the next, signed? (41_alu R131) -/
def execGt (s : State) : Host.Outcome State Fault Refusal :=
  aluBinary s fun a b => return boolValue (decide (a.toInt > b.toInt))

/-- GTE: is the top at least the next, signed? (41_alu R132) -/
def execGte (s : State) : Host.Outcome State Fault Refusal :=
  aluBinary s fun a b => return boolValue (decide (a.toInt ≥ b.toInt))

end Sys2Proof.Machine
end

