-- ==== Sys2Proof/Machine/Call.lean ====
section
/-! DEFINITION. CALL, RET and RETVAL (44_call R170 to R174). -/

namespace Sys2Proof.Machine

/-- CALL addr (44 R170): the caller, advanced past the CALL, goes back beneath a new frame with an
empty operand stack. -/
def execCall (addr : Idx) (s : State) : Host.Outcome State Fault Refusal :=
  withFrame s fun f rest => do
    let cs ← cpush s.cfg (f.advance :: rest) { stack := [], ip := addr }
    return s.setCs cs

/-- RET (44 R171): the current frame is discarded, also where it is the bottom one. -/
def execRet (s : State) : Host.Outcome State Fault Refusal :=
  withFrame s fun _ rest => return s.setCs rest

/-- RETVAL (44 R172): the pop, then the caller, then the push. -/
def execRetval (s : State) : Host.Outcome State Fault Refusal :=
  withFrame s fun f rest => do
    let (v, _) ← popOperand s.cfg f
    let (caller, below) ← cpop rest
    let caller ← opush s.cfg caller v
    return reinsert s caller below

end Sys2Proof.Machine
end

