-- ==== Sys2Proof/Machine/Jump.lean ====
section
/-! DEFINITION. JMP and JMPIF (42_jump R150 to R152). -/

namespace Sys2Proof.Machine

/-- JMP addr (42_jump R150): the target is absolute and not checked here. -/
def execJmp (addr : Idx) (s : State) : Host.Outcome State Fault Refusal :=
  withFrame s fun f rest => return reinsert s { f with ip := addr } rest

/-- JMPIF addr (42_jump R151): the condition is consumed whether or not the jump is taken. -/
def execJmpif (addr : Idx) (s : State) : Host.Outcome State Fault Refusal :=
  withFrame s fun f rest => do
    let (a, f) ← popOperand s.cfg f
    if isNonzero a then return reinsert s { f with ip := addr } rest
    else return complete s f rest

end Sys2Proof.Machine
end

