-- ==== Sys2Proof/Machine/Output.lean ====
section
/-! DEFINITION. OUT and HALT (45_output_halt R180 to R182). -/

namespace Sys2Proof.Machine

/-- OUT (45 R180). -/
def execOut (s : State) : Host.Outcome State Fault Refusal :=
  withFrame s fun f rest => do
    let (v, f) ← popOperand s.cfg f
    return complete (s.emit .out v) f rest

/-- HALT code (45 R181): the current frame is discarded, the frames beneath it stay. -/
def execHalt (code : Value) (s : State) : Host.Outcome State Fault Refusal :=
  withFrame s fun _ rest => return ((s.setCs rest).setHalted code).emit .halt code

end Sys2Proof.Machine
end

