-- ==== Sys2Proof/Machine/StackGlobals.lean ====
section
/-! DEFINITION. POP, PUSH, STORE and LOAD (43_stack_globals R160 to R165). -/

namespace Sys2Proof.Machine

/-- POP (43 R160). -/
def execPop (s : State) : Host.Outcome State Fault Refusal :=
  withFrame s fun f rest => do
    let (_, f) ← popOperand s.cfg f
    return complete s f rest

/-- PUSH v (43 R161). -/
def execPush (v : Value) (s : State) : Host.Outcome State Fault Refusal :=
  withFrame s fun f rest => do
    let f ← opush s.cfg f v
    return complete s f rest

/-- STORE addr (43 R162). -/
def execStore (addr : Idx) (s : State) : Host.Outcome State Fault Refusal :=
  withFrame s fun f rest => do
    let (v, f) ← popOperand s.cfg f
    return complete (s.globalWrite addr v) f rest

/-- LOAD addr (43 R163). -/
def execLoad (addr : Idx) (s : State) : Host.Outcome State Fault Refusal :=
  withFrame s fun f rest => do
    let f ← opush s.cfg f (globalRead s addr)
    return complete s f rest

end Sys2Proof.Machine
end

