-- ==== Sys2Proof/Machine/Dispatch.lean ====
section
/-! DEFINITION. The dispatcher: one arm per opcode (40_dispatch R103). -/

namespace Sys2Proof.Machine

def exec (i : Instr) (s : State) : Host.Outcome State Fault Refusal :=
  match i with
  | .add => Sys2Proof.Machine.execAdd s
  | .sub => Sys2Proof.Machine.execSub s
  | .mul => Sys2Proof.Machine.execMul s
  | .div => Sys2Proof.Machine.execDiv s
  | .mod => Sys2Proof.Machine.execMod s
  | .not => Sys2Proof.Machine.execNot s
  | .or => Sys2Proof.Machine.execOr s
  | .and => Sys2Proof.Machine.execAnd s
  | .eq => Sys2Proof.Machine.execEq s
  | .gt => Sys2Proof.Machine.execGt s
  | .gte => Sys2Proof.Machine.execGte s
  | .jmp addr => Sys2Proof.Machine.execJmp addr s
  | .jmpif addr => Sys2Proof.Machine.execJmpif addr s
  | .pop => Sys2Proof.Machine.execPop s
  | .push v => Sys2Proof.Machine.execPush v s
  | .store addr => Sys2Proof.Machine.execStore addr s
  | .load addr => Sys2Proof.Machine.execLoad addr s
  | .call addr => Sys2Proof.Machine.execCall addr s
  | .ret => Sys2Proof.Machine.execRet s
  | .retval => Sys2Proof.Machine.execRetval s
  | .out => Sys2Proof.Machine.execOut s
  | .halt code => Sys2Proof.Machine.execHalt code s

end Sys2Proof.Machine
end

