-- ==== Sys2Proof/Machine/Engine.lean ====
section
/-! DEFINITION. One step of the engine: the current frame, the pointer check, fetch and decode
(40_dispatch R101 to R103), in the priority of 60_exceptions R207. -/

namespace Sys2Proof.Machine

/-- One step, whatever ENGINE_STATE is: the run loop takes it in RUNNING and the STEP command in
PAUSED (40_dispatch R100). The fetch of a word the host has not written is refused (70 R240; log
entry 4). -/
def engineStep (s : State) : Host.Outcome State Fault Refusal :=
  match s.cs with
  | [] => .next (s.raise .emptyCallStack none)
  | f :: _ =>
    if s.progLen ≤ f.ip then .next (s.raise .invalidIp (some f.ip))
    else
      match fetchWord s f.ip with
      | none => .refused (.unwrittenWord f.ip)
      | some w =>
        match decode w with
        | .error _ => .next (s.raise .illegalInstruction (some f.ip))
        | .ok i => exec i s

/-- Where the host's probe fetches: the current frame's pointer, or ENTRY where CS is empty, or 0
where that pointer can never be inside a program (20_memory R61). -/
def probeIp (s : State) : Idx :=
  let ip := match s.cs with
    | [] => s.entry
    | f :: _ => f.ip
  if ip = 0xFFFF then 0 else ip

/-- The call stack the probe runs on: the current frame at `probeIp`, or one new frame. -/
def probeCs (s : State) : List Frame :=
  match s.cs with
  | [] => [{ stack := [], ip := probeIp s }]
  | f :: rest => { f with ip := probeIp s } :: rest

/-- A program length that admits the probe's fetch. -/
def probeLen (s : State) : Idx :=
  if probeIp s < s.progLen then s.progLen else probeIp s + 1

/-- `s` with one instruction word loaded where the next step fetches, and the engine RUNNING (log
entry 13): it stands for the host's load, START and RUN of 70 R240. -/
def loadProbe (s : State) (w : IWord) : State :=
  { s.imemWrite (probeIp s) w with
    progLen := probeLen s
    cs := probeCs s
    estate := .running }

end Sys2Proof.Machine
end

