-- ==== Sys2Proof/Machine/Step.lean ====
section
/-! DEFINITION. The engine's own step: in RUNNING it takes one (40_dispatch R100, R111); in every
other state it takes none and the model is stuck under that state's name (log entry 5). -/

namespace Sys2Proof.Machine

/-- The engine's step in its present ENGINE_STATE (40_dispatch R100). -/
def step (s : State) : Host.Outcome State Fault Refusal :=
  match s.estate with
  | .running => engineStep s
  | .idle => .fault .engineIdle
  | .paused => .fault .enginePaused
  | .halted => .fault .engineHalted
  | .faulted => .fault .engineFaulted

/-- The host's probe of one opcode-table row: see `loadProbe`. -/
def State.withFetchWord (s : State) (nbits w : Nat) : State := loadProbe s (tableWord nbits w)

end Sys2Proof.Machine
end

