-- ==== Sys2Proof/Machine/Assembler.lean ====
section
/-! DEFINITION. The assembler of 30_encoding R88: a listing, as characters, to instruction words.
What R88 leaves open (the index a listing says its first instruction has, signs, the letters of a
label, spacing, labels on a line of their own) is log entry 15. -/

namespace Sys2Proof.Machine

/-- One line of a listing, read. -/
structure SourceLine where
  label : Option (List Char)
  instr : Option SourceInstr
  deriving DecidableEq, Repr

/-- Why a listing is not assembled, with the number of the line, from 0. No word is emitted. -/
inductive AsmError where
  /-- the line is not `label: MNEMONIC operand ; comment` -/
  | badLine (line : Nat)
  /-- a missing, stray or out-of-range operand (30_encoding R88) -/
  | badOperand (line : Nat) (e : SourceError)
  | unknownLabel (line : Nat) (name : List Char)
  | duplicateLabel
  deriving DecidableEq, Repr

/-! ### Lines and tokens -/

def isBlank (c : Char) : Bool := c == ' ' || c == '\t' || c == '\r'

def trimBlanks (l : List Char) : List Char :=
  ((l.dropWhile isBlank).reverse.dropWhile isBlank).reverse

/-- One instruction per line (30_encoding R88). -/
def splitLines : List Char → List (List Char)
  | [] => [[]]
  | c :: cs =>
    if c == '\n' then [] :: splitLines cs
    else
      match splitLines cs with
      | [] => [[c]]
      | l :: ls => (c :: l) :: ls

/-- `;` starts a comment (30_encoding R88). -/
def stripComment (l : List Char) : List Char := l.takeWhile fun c => !(c == ';')

/-- The spellings of the mnemonics, in capitals (30_encoding R84, R88). -/
def mnemonicTable : List (List Char × Mnemonic) :=
  [(['A', 'D', 'D'], .add), (['S', 'U', 'B'], .sub), (['M', 'U', 'L'], .mul),
   (['D', 'I', 'V'], .div), (['M', 'O', 'D'], .mod), (['N', 'O', 'T'], .not),
   (['O', 'R'], .or), (['A', 'N', 'D'], .and), (['E', 'Q'], .eq), (['G', 'T'], .gt),
   (['G', 'T', 'E'], .gte)] ++
  [(['J', 'M', 'P'], .jmp), (['J', 'M', 'P', 'I', 'F'], .jmpif), (['P', 'O', 'P'], .pop),
   (['P', 'U', 'S', 'H'], .push), (['S', 'T', 'O', 'R', 'E'], .store),
   (['L', 'O', 'A', 'D'], .load), (['C', 'A', 'L', 'L'], .call), (['R', 'E', 'T'], .ret),
   (['R', 'E', 'T', 'V', 'A', 'L'], .retval), (['O', 'U', 'T'], .out),
   (['H', 'A', 'L', 'T'], .halt)]

/-- A label: a letter or `_`, then letters, digits and `_`. -/
def isLabelName : List Char → Bool
  | [] => false
  | c :: cs => (c.isAlpha || c == '_') && cs.all fun d => d.isAlphanum || d == '_'

/-- The value of a digit, in either case. -/
def digitValue (c : Char) : Nat :=
  if c.isDigit then c.toNat - 48 else if c.isUpper then c.toNat - 55 else c.toNat - 87

/-- Whether a character is a hexadecimal digit. -/
def isHexDigit (c : Char) : Bool :=
  c.isDigit || (65 ≤ c.toNat && c.toNat ≤ 70) || (97 ≤ c.toNat && c.toNat ≤ 102)

/-- The number a nonempty string of digits of a base writes. -/
def readDigits (base : Nat) (ok : Char → Bool) (l : List Char) : Option Nat :=
  if !l.isEmpty && l.all ok then some (l.foldl (fun n c => n * base + digitValue c) 0) else none

/-- An operand: a decimal, a hexadecimal or a label (30_encoding R88). DESIGN CHOICE (log entry 15):
the one sign is a leading minus directly before decimal digits; a leading plus is refused. -/
def readOperand : List Char → Option SourceOperand
  | [] => none
  | '-' :: digits => (readDigits 10 Char.isDigit digits).map (.decimal true)
  | '0' :: 'x' :: digits => (readDigits 16 isHexDigit digits).map .hex
  | c :: cs =>
    if c.isDigit then (readDigits 10 Char.isDigit (c :: cs)).map (.decimal false)
    else if isLabelName (c :: cs) then some (.label (c :: cs))
    else none

/-- Strips the parentheses of the form `OP(operand)` (30_encoding R88). -/
def stripParens : List Char → Option (List Char)
  | '(' :: cs =>
    match cs.reverse with
    | ')' :: inner => some (trimBlanks inner.reverse)
    | _ => none
  | cs => some cs

/-- An instruction, in the form `OP operand` or `OP(operand)` (30_encoding R88). -/
def readInstr (l : List Char) : Option SourceInstr :=
  let inName : Char → Bool := fun c => !(isBlank c || c == '(')
  let rest := trimBlanks (l.dropWhile inName)
  match mnemonicTable.lookup (l.takeWhile inName) with
  | none => none
  | some m =>
    if rest.isEmpty then some { mnemonic := m, operand := none }
    else
      match (stripParens rest).bind readOperand with
      | some o => some { mnemonic := m, operand := some o }
      | none => none

/-- One line: an optional label, an optional instruction, an optional comment. -/
def readLine (l : List Char) : Option SourceLine :=
  let l := trimBlanks (stripComment l)
  let name := l.takeWhile fun c => !(c == ':')
  let labelled := decide (name.length < l.length)
  let body := if labelled then trimBlanks (l.drop (name.length + 1)) else l
  if labelled && !isLabelName (trimBlanks name) then none
  else
    let label := if labelled then some (trimBlanks name) else none
    if body.isEmpty then some { label := label, instr := none }
    else (readInstr body).map fun i => { label := label, instr := some i }

/-- Every line with its number. -/
def readLines : Nat → List (List Char) → Except AsmError (List (Nat × SourceLine))
  | _, [] => .ok []
  | n, l :: ls =>
    match readLine l with
    | none => .error (.badLine n)
    | some sl => (readLines (n + 1) ls).map ((n, sl) :: ·)

/-! ### Labels and words -/

/-- The labels with the absolute index of the next instruction (30_encoding R88); the first
instruction has index `i`. -/
def labelTable : Nat → List (Nat × SourceLine) → List (List Char × Nat)
  | _, [] => []
  | i, (_, l) :: ls =>
    let rest := labelTable (if l.instr.isSome then i + 1 else i) ls
    match l.label with
    | some name => (name, i) :: rest
    | none => rest

/-- Puts a label's index in its place. -/
def resolveLabel (table : List (List Char × Nat)) (line : Nat) (i : SourceInstr) :
    Except AsmError SourceInstr :=
  match i.operand with
  | some (.label name) =>
    match i.mnemonic.operandClass, table.lookup name with
    | .addr, some index => .ok { i with operand := some (.decimal false index) }
    | .addr, none => .error (.unknownLabel line name)
    | _, _ => .ok i
  | _ => .ok i

/-- The 16-bit pattern of an operand in range (30_encoding R87, R88). -/
def operandPattern : Option SourceOperand → BitVec 16
  | none => 0
  | some (.decimal negative n) => BitVec.ofInt 16 (if negative then -(n : Int) else n)
  | some (.hex p) => BitVec.ofNat 16 p
  | some (.label _) => 0

/-- The instruction of a mnemonic and a pattern (30_encoding R82, R84). -/
def instrOf (p : BitVec 16) : Mnemonic → Instr
  | .add => .add
  | .sub => .sub
  | .mul => .mul
  | .div => .div
  | .mod => .mod
  | .not => .not
  | .or => .or
  | .and => .and
  | .eq => .eq
  | .gt => .gt
  | .gte => .gte
  | .jmp => .jmp (addrOperand p)
  | .jmpif => .jmpif (addrOperand p)
  | .pop => .pop
  | .push => .push (litOperand p)
  | .store => .store (addrOperand p)
  | .load => .load (addrOperand p)
  | .call => .call (addrOperand p)
  | .ret => .ret
  | .retval => .retval
  | .out => .out
  | .halt => .halt (litOperand p)

/-- The word of one instruction of a listing, or its assembly error (30_encoding R88). -/
def assembleInstr (table : List (List Char × Nat)) (line : Nat) (i : SourceInstr) :
    Except AsmError IWord :=
  match resolveLabel table line i with
  | .error e => .error e
  | .ok i =>
    match i.error? with
    | some e => .error (.badOperand line e)
    | none => .ok (encode (instrOf (operandPattern i.operand) i.mnemonic))

/-- The words of the lines that hold an instruction. -/
def assembleLines (table : List (List Char × Nat)) :
    List (Nat × SourceLine) → Except AsmError (List IWord)
  | [] => .ok []
  | (n, l) :: ls =>
    match l.instr with
    | none => assembleLines table ls
    | some i =>
      match assembleInstr table n i with
      | .error e => .error e
      | .ok w => (assembleLines table ls).map (w :: ·)

/-- Assembles a listing whose first instruction has index `base`, 0 unless the listing says
otherwise (30_encoding R88). DESIGN CHOICE (log entry 15): R88 gives no directive that says so; the
text holds none, and the index is this argument. -/
def assemble (base : Nat) (listing : List Char) : Except AsmError (List IWord) :=
  match readLines 0 (splitLines listing) with
  | .error e => .error e
  | .ok lines =>
    let table := labelTable base lines
    if (table.map Prod.fst).Nodup then assembleLines table lines else .error .duplicateLabel

end Sys2Proof.Machine
end

