-- ==== Sys2Proof/Machine/HostPort.lean ====
section
/-! DEFINITION. The host's side of the engine: reset (70 R230), program load (R232), the commands
START, RUN and STEP (R233 to R236), the host registers and the three ports (R237 to R239). The host
acts between two steps (20_memory R70; log entry 14). -/

namespace Sys2Proof.Machine

/-- One act of the host. -/
inductive HostAction where
  /-- reset is asserted (70 R230) -/
  | reset
  /-- a write of a host register (70 R237) -/
  | writeReg (number : BitVec 8) (word : BitVec 32)
  /-- a read of a host register (70 R237) -/
  | readReg (number : BitVec 8)
  /-- a write through the IMEM port (70 R232, R237) -/
  | writeImem (index : Idx) (word : IWord)
  /-- a read through the IMEM port (70 R237) -/
  | readImem (index : Idx)
  /-- a read through the GLOBAL port (70 R237) -/
  | readGlobal (index : Idx)
  /-- the FRAME port: the pointer of frame `k`, 0 the bottom (70 R237) -/
  | readFrameIp (k : Nat)
  /-- the FRAME port: the stack length of frame `k` (70 R237) -/
  | readFrameLength (k : Nat)
  /-- the FRAME port: entry `j` of frame `k`'s stack, 0 the bottom (70 R237; log entry 10) -/
  | readFrameEntry (k j : Nat)
  deriving DecidableEq, Repr

/-- What a host act answers. -/
inductive HostReply where
  | done
  /-- a 32-bit register or instruction word -/
  | word (w : BitVec 32)
  /-- a 16-bit value or pointer -/
  | value (v : BitVec 16)
  /-- a length -/
  | count (n : Nat)
  deriving DecidableEq, Repr

/-! ### Reset and program load -/

/-- Reset from any state (70 R230, R231). The engine keeps its parameters (10_state R31), and the
model does not draw old free values again (log entry 9). -/
def State.hostReset (s : State) : State := State.resetWith s.cfg s.draws

/-- The write of IMEM[i]: in IDLE and for an index that exists (70 R232; 20_memory R61); any other
is ignored (70 R239). -/
def State.hostWriteImem (s : State) (i : Idx) (w : IWord) : State :=
  if s.estate = .idle ∧ i ≠ 0xFFFF then s.imemWrite i w else s

/-- The write of ENTRY: only in IDLE (70 R232, R239). -/
def State.hostWriteEntry (s : State) (v : Idx) : State :=
  if s.estate = .idle then { s with entry := v } else s

/-- The write of PROG_LEN: only in IDLE (70 R232, R239). -/
def State.hostWriteProgLen (s : State) (v : Idx) : State :=
  if s.estate = .idle then { s with progLen := v } else s

/-! ### Commands -/

/-- The lowest index of the program whose word the host has not written since reset (70 R240). -/
def firstUnwritten (s : State) : Option Nat :=
  (List.range s.progLen.toNat).find? fun i => (cellsGet s.imem i).isNone

/-- Puts ENGINE_STATE in place. -/
def State.setEstate (s : State) (e : EngineState) : State := { s with estate := e }

/-- START (70 R233): in IDLE it seeds one frame at ENTRY. A launch that leaves a word of the program
unwritten is not admitted (70 R240; 93_implementation_defined U10; log entry 4). -/
def hostStart (s : State) : Host.Outcome State Fault Refusal :=
  match s.estate with
  | .idle =>
    match firstUnwritten s with
    | some i => .refused (.unwrittenWord (BitVec.ofNat 16 i))
    | none => .next ((s.setCs [{ stack := [], ip := s.entry }]).setEstate .paused)
  | _ => .next s

/-- RUN (70 R234). -/
def hostRun (s : State) : Host.Outcome State Fault Refusal :=
  match s.estate with
  | .paused => .next (s.setEstate .running)
  | _ => .next s

/-- STEP (70 R235): in PAUSED, exactly one step of the engine. -/
def hostStep (s : State) : Host.Outcome State Fault Refusal :=
  match s.estate with
  | .paused => engineStep s
  | _ => .next s

/-- A write of CTRL: the command of the one bit of [2:0] that is set, or nothing (70 R237, R239). -/
def writeCtrl (s : State) (w : BitVec 32) : Host.Outcome State Fault Refusal :=
  match (w.extractLsb' 0 3).toNat with
  | 1 => hostStart s
  | 2 => hostRun s
  | 4 => hostStep s
  | _ => .next s

/-- A write of a host register: CTRL, ENTRY and PROG_LEN take one, every other register ignores it
(70 R237, R239). -/
def writeHostReg (s : State) (n : BitVec 8) (w : BitVec 32) : Host.Outcome State Fault Refusal :=
  match n.toNat with
  | 0x00 => writeCtrl s w
  | 0x04 => .next (s.hostWriteEntry (w.extractLsb' 0 16))
  | 0x05 => .next (s.hostWriteProgLen (w.extractLsb' 0 16))
  | _ => .next s

/-! ### Register reads -/

/-- The encoding of ENGINE_STATE (10_state R40). -/
def estateCode : EngineState → BitVec 3
  | .idle => 0
  | .paused => 1
  | .running => 2
  | .halted => 3
  | .faulted => 4

/-- STATUS (70 R237). -/
def statusReg (s : State) : BitVec 32 :=
  (0 : BitVec 28) ++ BitVec.ofBool s.halted ++ estateCode s.estate

/-- FAULT (70 R237). -/
def faultReg (s : State) : BitVec 32 :=
  s.faultIp ++ (0 : BitVec 7) ++ BitVec.ofBool s.faultIpv ++ causeCode s.faultCause

/-- HALT_CODE (70 R237). -/
def haltCodeReg (s : State) : BitVec 32 := (0 : BitVec 16) ++ s.haltCode

/-- ENTRY (70 R237). -/
def entryReg (s : State) : BitVec 32 := (0 : BitVec 16) ++ s.entry

/-- PROG_LEN (70 R237). -/
def progLenReg (s : State) : BitVec 32 := (0 : BitVec 16) ++ s.progLen

/-- CALL_DEPTH: the 17 bits the register gives |CS| (70 R237; log entry 11). -/
def callDepthReg (s : State) : BitVec 32 := (0 : BitVec 15) ++ BitVec.ofNat 17 s.cs.length

/-- The next free value, and the state that has drawn it (log entry 9). -/
def drawWord (s : State) : BitVec 32 × State :=
  (Config.freeWord s.draws, { s with draws := s.draws + 1 })

/-- A register that may be read at any time but shows its value only outside RUNNING (70 R238). -/
def readOutsideRun (s : State) (w : BitVec 32) : BitVec 32 × State :=
  if s.estate = .running then drawWord s else (w, s)

/-- A read of a host register (70 R237, R238): CTRL and the reserved numbers read 0, STATUS is
readable in every state. -/
def readHostReg (s : State) (n : BitVec 8) : BitVec 32 × State :=
  match n.toNat with
  | 0x01 => (statusReg s, s)
  | 0x02 => readOutsideRun s (faultReg s)
  | 0x03 => readOutsideRun s (haltCodeReg s)
  | 0x04 => readOutsideRun s (entryReg s)
  | 0x05 => readOutsideRun s (progLenReg s)
  | 0x06 => readOutsideRun s (callDepthReg s)
  | _ => (0, s)

/-! ### Ports -/

/-- A read through the IMEM port (70 R237): a word not written since reset, or any word during
RUNNING, reads as a free value (93_implementation_defined U11, U12); index 65535 does not exist. -/
def readImemPort (s : State) (i : Idx) : Except Fault (BitVec 32 × State) :=
  if s.estate = .running then .ok (drawWord s)
  else if i = 0xFFFF then .error .noSuchPlace
  else
    match imemWord s i with
    | some w => .ok (w, s)
    | none => .ok (drawWord s)

/-- A read through the GLOBAL port (70 R237, R238). -/
def readGlobalPort (s : State) (a : Idx) : BitVec 16 × State :=
  if s.estate = .running then ((drawWord s).1.setWidth 16, (drawWord s).2)
  else (globalRead s a, s)

/-- Frame `k` of CS, 0 the bottom (70 R237). -/
def frameAt (s : State) (k : Nat) : Option Frame := s.cs.reverse[k]?

/-- A read through the FRAME port: during RUNNING a free value, else what `view` shows of frame
`k`, where the place exists (70 R237, R238; log entry 11). -/
def readFramePort (s : State) (k : Nat) (free : BitVec 32 → HostReply)
    (view : Frame → Option HostReply) : Except Fault (HostReply × State) :=
  if s.estate = .running then .ok (free (drawWord s).1, (drawWord s).2)
  else
    match (frameAt s k).bind view with
    | some r => .ok (r, s)
    | none => .error .noSuchPlace

/-! ### One act -/

/-- Pairs a next state with the reply `done`. -/
def withDone (o : Host.Outcome State Fault Refusal) :
    Host.Outcome (HostReply × State) Fault Refusal :=
  match o with
  | .next t => .next (.done, t)
  | .fault e => .fault e
  | .refused e => .refused e

/-- A read's answer as an outcome. -/
def ofRead (r : Except Fault (HostReply × State)) :
    Host.Outcome (HostReply × State) Fault Refusal :=
  match r with
  | .ok x => .next x
  | .error e => .fault e

/-- One act of the host and its answer. -/
def hostAct (a : HostAction) (s : State) : Host.Outcome (HostReply × State) Fault Refusal :=
  match a with
  | .reset => withDone (.next s.hostReset)
  | .writeReg n w => withDone (writeHostReg s n w)
  | .readReg n => .next (.word (readHostReg s n).1, (readHostReg s n).2)
  | .writeImem i w => withDone (.next (s.hostWriteImem i w))
  | .readImem i => ofRead ((readImemPort s i).map fun r => (.word r.1, r.2))
  | .readGlobal i => .next (.value (readGlobalPort s i).1, (readGlobalPort s i).2)
  | .readFrameIp k => ofRead (readFramePort s k (fun w => .value (w.setWidth 16))
      fun f => some (.value f.ip))
  | .readFrameLength k => ofRead (readFramePort s k (fun w => .count w.toNat)
      fun f => some (.count f.stack.length))
  | .readFrameEntry k j => ofRead (readFramePort s k (fun w => .value (w.setWidth 16))
      fun f => f.stack.reverse[j]?.map .value)

/-! ### The two agents together -/

/-- What happens next: a step of the engine or an act of the host (00_scope R23). -/
inductive Event where
  | engine
  | host (a : HostAction)
  deriving DecidableEq, Repr

/-- One event of the engine and its host. Which agent acts next is the event's to say; no rule of
the spec orders the host's acts against the engine's steps (log entry 14). -/
def event (e : Event) (s : State) : Host.Outcome State Fault Refusal :=
  match e with
  | .engine => step s
  | .host a =>
    match hostAct a s with
    | .next (_, t) => .next t
    | .fault r => .fault r
    | .refused r => .refused r

end Sys2Proof.Machine
end

