-- ==== Sys2Proof/Machine/Run.lean ====
section
/-! DEFINITION. The run loop (40_dispatch R111) and how a run ends (70 R242, R246). -/

namespace Sys2Proof.Machine

/-- How a run of at most `k` steps came out. -/
inductive RunResult where
  /-- ENGINE_STATE is HALTED or FAULTED: the run has ended (70 R242) -/
  | ended (s : State)
  /-- the steps ran out first: not an end (70 R246) -/
  | notEnded (s : State)
  /-- the model stopped by name -/
  | faulted (r : Fault)
  | refused (r : Refusal)
  deriving DecidableEq, Repr

/-- Takes steps while ENGINE_STATE is RUNNING, at most `fuel` of them (40_dispatch R111). -/
def runLoop : Nat → State → RunResult
  | fuel, s =>
    match s.estate with
    | .halted | .faulted => .ended s
    | .idle | .paused => .notEnded s
    | .running =>
      match fuel with
      | 0 => .notEnded s
      | k + 1 =>
        match engineStep s with
        | .next t => runLoop k t
        | .fault r => .faulted r
        | .refused r => .refused r

/-- A list of events, in order, stopping where one is refused or faults. -/
def events : List Event → State → Host.Outcome State Fault Refusal
  | [], s => .next s
  | e :: es, s =>
    match event e s with
    | .next t => events es t
    | .fault r => .fault r
    | .refused r => .refused r

end Sys2Proof.Machine
end

