-- ==== Sys2Proof/Safety.lean ====
section
/-! DEFINITION. What a good end of a run is (70 R242), and the invariant every event keeps. -/

namespace Sys2Proof.Machine

/-- A run's good end (70 R242). -/
abbrev GoodEnd (s : State) : Prop := s.estate = .halted ∧ s.faultCause = .none

/-- A run's bad end (70 R242). -/
abbrev BadEnd (s : State) : Prop := s.estate = .faulted

/-- The length invariants (10_state R33, R34, R47). -/
abbrev CapacityInv (s : State) : Prop :=
  1 ≤ s.cfg.callstackCap ∧ s.cs.length ≤ s.cfg.callstackCap ∧
    ∀ f ∈ s.cs, f.stack.length ≤ s.cfg.opstackCap

/-- HALTED and HALT_CODE go with ENGINE_STATE = HALTED, the fault record with FAULTED (40_dispatch
R112; 10_state R41, R42; 60_exceptions R203). -/
abbrev StatusInv (s : State) : Prop :=
  (s.halted = true ↔ s.estate = .halted) ∧ (s.faultCause ≠ .none ↔ s.estate = .faulted) ∧
    (s.estate ≠ .halted → s.haltCode = 0) ∧
    (s.estate ≠ .faulted → s.faultIp = 0 ∧ s.faultIpv = false) ∧
    (s.faultIpv = false → s.faultIp = 0)

/-- OUT_LOG holds a HALT event only when the engine has halted, and then exactly one, the last, with
HALT_CODE (45_output_halt R182; 70 R242). -/
abbrev OutLogInv (s : State) : Prop :=
  (s.estate ≠ .halted → ∀ e ∈ s.outLog, e.kind = .out) ∧
    (s.estate = .halted →
      s.outLog.getLast? = some ⟨.halt, s.haltCode⟩ ∧ ∀ e ∈ s.outLog.dropLast, e.kind = .out)

/-- Every frame beneath the top has a pointer one past a CALL of the program (44_call R173). -/
def ReturnInv (s : State) : Prop :=
  ∀ f ∈ s.cs.tail, f.ip ≠ 0 ∧ ∃ target, fetchWord s (f.ip - 1) = some (encode (.call target))

/-- In IDLE nothing has run: no frame, no global, no event (10_state R46; 70 R232, R236). -/
abbrev IdleInv (s : State) : Prop := s.estate = .idle → s.cs = [] ∧ s.g = [] ∧ s.outLog = []

/-- Outside IDLE the host has written every word of the program (70 R240; log entry 4). -/
def LoadedInv (s : State) : Prop :=
  s.estate ≠ .idle → ∀ i : Idx, i < s.progLen → ∃ w, imemWord s i = some w

/-- The engine's invariant. Its premise on the configuration is `Config.wellFormed` (log entry 2). -/
structure EngineInv (s : State) : Prop where
  memory : Memory.wf s
  capacity : CapacityInv s
  status : StatusInv s
  outLog : OutLogInv s
  returns : ReturnInv s
  idle : IdleInv s
  loaded : LoadedInv s

/-! ### Words of the statements -/

/-- The state a step leaves that faults with a current frame at `ip` (60_exceptions R202, R203):
the state at its start but for the fault record and ENGINE_STATE. -/
def faultRecord (s : State) (cause : FaultCause) (ip : Idx) : State :=
  { s with faultCause := cause, faultIp := ip, faultIpv := true, estate := .faulted }

/-- The state a step leaves that starts with CS empty (40_dispatch R101; 60_exceptions R202). -/
def emptyRecord (s : State) : State :=
  { s with faultCause := .emptyCallStack, faultIp := 0, faultIpv := false, estate := .faulted }

/-- The cause of an opcode that pops unchecked from an empty operand stack (60_exceptions R201). -/
def underflowCause (c : Config) : FaultCause :=
  if c.uniformPrecheck then .insufficientOperands else .operandUnderflow

/-- The causes an instruction can raise itself (60_exceptions R201). -/
def ownCauses (c : Config) : Instr → List FaultCause
  | .add | .sub | .mul =>
    .insufficientOperands :: (if c.overflowMode = .fault then [.arithOverflow] else [])
  | .div | .mod => [.insufficientOperands, .divideByZero, .divideOverflow]
  | .not | .or | .and | .eq | .gt | .gte => [.insufficientOperands]
  | .jmp _ => []
  | .jmpif _ | .pop | .store _ | .out => [underflowCause c]
  | .push _ | .load _ => [.operandOverflow]
  | .call _ => [.callOverflow]
  | .ret => []
  | .retval => [underflowCause c, .emptyCallStack, .operandOverflow]
  | .halt _ => []

/-- The instructions that end with the default advance whatever they pop (40_dispatch R104). -/
def advancesByOne : Instr → Bool
  | .add | .sub | .mul | .div | .mod | .not | .or | .and | .eq | .gt | .gte
  | .pop | .push _ | .store _ | .load _ | .out => true
  | .jmp _ | .jmpif _ | .call _ | .ret | .retval | .halt _ => false

/-- The engine takes a step in this event: its own in RUNNING, or the STEP command's in PAUSED
(40_dispatch R100; 70 R235, R237). -/
def TakesStep (e : Event) (s : State) : Prop :=
  e = .engine ∧ s.estate = .running ∨
    ∃ w : BitVec 32, e = .host (.writeReg 0x00 w) ∧ w.extractLsb' 0 3 = 4#3 ∧
      s.estate = .paused

/-- The word at the current frame's pointer is `i`'s (40_dispatch R102, R103). -/
def CurrentInstr (s : State) (i : Instr) : Prop :=
  ∃ f rest, s.cs = f :: rest ∧ fetchWord s f.ip = some (encode i)

/-- The event is a step that completes STORE `a` (43_stack_globals R162). -/
def Stores (e : Event) (a : Idx) (s t : State) : Prop :=
  TakesStep e s ∧ CurrentInstr s (.store a) ∧ exec (.store a) s = .next t ∧ t.estate ≠ .faulted

/-- The host's boot of a program (70 R240): reset, its words from index 0 up, PROG_LEN, ENTRY, START,
RUN. -/
def bootEvents (program : List IWord) (entry : Idx) : List Event :=
  .host .reset ::
    (program.zipIdx.map fun p => .host (.writeImem (BitVec.ofNat 16 p.2) p.1)) ++
    [.host (.writeReg 0x05 (BitVec.ofNat 32 program.length)),
     .host (.writeReg 0x04 (entry.setWidth 32)),
     .host (.writeReg 0x00 1),
     .host (.writeReg 0x00 2)]

end Sys2Proof.Machine
end

