-- ==== Sys2Proof/Certificates/Slice0/Obligations.lean ====
section
/-! DEFINITION. The statements for the provers. -/

open Sys2Proof Sys2Proof.Machine

/-- 30_encoding R87: the word is `{op, 0x00, p}`, and encoding and decoding undo each other both
ways. -/
def Obligations.DecodeInvertsEncode : Prop :=
  (∀ i : Instr,
    (encode i).extractLsb' 24 8 = opcodeOf i ∧ (encode i).extractLsb' 16 8 = 0x00#8 ∧
      (encode i).extractLsb' 0 16 = immOf i ∧ decode (encode i) = .ok i) ∧
    ∀ (w : IWord) (i : Instr), decode w = .ok i → encode i = w

/-- 30_encoding R84: each row's word pattern, as an equivalence. -/
def Obligations.OpcodeMapExact : Prop :=
  ∀ w : IWord,
    (decode w = .ok .add ↔ w = 0x01000000#32) ∧
    (decode w = .ok .sub ↔ w = 0x02000000#32) ∧
    (decode w = .ok .mul ↔ w = 0x03000000#32) ∧
    (decode w = .ok .div ↔ w = 0x04000000#32) ∧
    (decode w = .ok .mod ↔ w = 0x05000000#32) ∧
    (decode w = .ok .not ↔ w = 0x06000000#32) ∧
    (decode w = .ok .or ↔ w = 0x07000000#32) ∧
    (decode w = .ok .and ↔ w = 0x08000000#32) ∧
    (decode w = .ok .eq ↔ w = 0x09000000#32) ∧
    (decode w = .ok .gt ↔ w = 0x0A000000#32) ∧
    (decode w = .ok .gte ↔ w = 0x0B000000#32) ∧
    (∀ a, decode w = .ok (.jmp a) ↔ w = 0x0C00#16 ++ a) ∧
    (∀ a, decode w = .ok (.jmpif a) ↔ w = 0x0D00#16 ++ a) ∧
    (decode w = .ok .pop ↔ w = 0x0E000000#32) ∧
    (∀ a, decode w = .ok (.push a) ↔ w = 0x0F00#16 ++ a) ∧
    (∀ a, decode w = .ok (.store a) ↔ w = 0x1000#16 ++ a) ∧
    (∀ a, decode w = .ok (.load a) ↔ w = 0x1100#16 ++ a) ∧
    (∀ a, decode w = .ok (.call a) ↔ w = 0x1200#16 ++ a) ∧
    (decode w = .ok .ret ↔ w = 0x13000000#32) ∧
    (decode w = .ok .retval ↔ w = 0x14000000#32) ∧
    (decode w = .ok .out ↔ w = 0x15000000#32) ∧
    (∀ a, decode w = .ok (.halt a) ↔ w = 0x1600#16 ++ a)

/-- 95_test_vectors 2.0. A sanity statement about fixed words. -/
def Obligations.SampleWordsDecode : Prop :=
  decode 0x01000000 = .ok .add ∧ decode 0x14000000 = .ok .retval ∧
    decode 0x15000000 = .ok .out ∧ decode 0x0F000005 = .ok (.push 5) ∧
    decode 0x0F00FFFF = .ok (.push (-1)) ∧ decode 0x0F008000 = .ok (.push (-32768)) ∧
    decode 0x0F007FFF = .ok (.push 32767) ∧ decode 0x16000000 = .ok (.halt 0) ∧
    decode 0x0C00FFFF = .ok (.jmp 65535) ∧ decode 0x1100FFFF = .ok (.load 65535) ∧
    decode 0x1600FFFF = .ok (.halt (-1)) ∧ decode 0x1200012C = .ok (.call 300) ∧
    (∀ w ∈ ([0x00000000, 0x01000001, 0x0F010005, 0x16FF0000, 0x17000000, 0xFF000000,
      0xFFFFFFFF] : List IWord), ∃ e, decode w = .error e)

/-- 30_encoding R86. -/
def Obligations.IllegalWordsFault : Prop :=
  (∀ w : IWord, (∃ e, decode w = .error e) ↔
      w.extractLsb' 24 8 = 0x00#8 ∨ 0x17#8 ≤ w.extractLsb' 24 8 ∨ w.extractLsb' 16 8 ≠ 0x00#8 ∨
        (w.extractLsb' 24 8 ∈ ([0x01, 0x02, 0x03, 0x04, 0x05, 0x06, 0x07, 0x08, 0x09, 0x0A, 0x0B,
          0x0E, 0x13, 0x14, 0x15] : List (BitVec 8)) ∧ w.extractLsb' 0 16 ≠ 0x0000#16)) ∧
    ∀ (s : State) (f : Frame) (rest : List Frame) (w : IWord) (e : Illegal),
      s.estate = .running → s.cs = f :: rest → f.ip < s.progLen → imemWord s f.ip = some w →
        decode w = .error e → step s = .next (faultRecord s .illegalInstruction f.ip)

/-- 20_memory R63, second half: the byte order of a serialised instruction word and of a 16-bit
value. -/
def Obligations.BytesAreLittleEndian : Prop :=
  bytesOfWord 0x0F000009 = [0x09, 0x00, 0x00, 0x0F] ∧
    (∀ (w : IWord) (b0 b1 b2 b3 : BitVec 8), bytesOfWord w = [b0, b1, b2, b3] ↔
      w.toNat = b0.toNat + 256 * b1.toNat + 65536 * b2.toNat + 16777216 * b3.toNat) ∧
    (∀ (v : BitVec 16) (b0 b1 : BitVec 8), bytesOfValue v = [b0, b1] ↔
      v.toNat = b0.toNat + 256 * b1.toNat) ∧
    ∀ (w : IWord) (rest : List (BitVec 8)),
      decodeBytes (bytesOfWord w ++ rest) = (decode w).map fun i => (i, rest)

/-- 30_encoding R88, its rules on operands that are not labels. -/
def Obligations.AssemblerAcceptsExactlyWellFormed : Prop :=
  ∀ (table : List (List Char × Nat)) (line : Nat) (i : SourceInstr),
    (∀ name, i.operand ≠ some (.label name)) →
      (∀ e, i.error? = some e → assembleInstr table line i = .error (.badOperand line e)) ∧
      (i.wellFormed = true → ∃ w p,
        assembleInstr table line i = .ok w ∧ decode w = .ok (instrOf p i.mnemonic) ∧
          (∀ negative n, i.operand = some (.decimal negative n) →
            i.mnemonic.operandClass = .lit → p.toInt = if negative then -(n : Int) else n) ∧
          (∀ n, i.operand = some (.decimal false n) →
            i.mnemonic.operandClass = .addr → p.toNat = n) ∧
          (∀ n, i.operand = some (.hex n) → p.toNat = n))

/-- 40_dispatch R103. The model's step adds nothing around `exec`. -/
def Obligations.StepRunsDecodedInstruction : Prop :=
  ∀ (s : State) (f : Frame) (rest : List Frame) (w : IWord),
    s.cs = f :: rest → f.ip < s.progLen → imemWord s f.ip = some w →
      (∀ i, decode w = .ok i →
        (s.estate = .running → step s = exec i s) ∧
          (s.estate = .paused → hostStep s = exec i s)) ∧
      (∀ e, decode w = .error e →
        (s.estate = .running → step s = .next (faultRecord s .illegalInstruction f.ip)) ∧
          (s.estate = .paused → hostStep s = .next (faultRecord s .illegalInstruction f.ip)))

/-- 40_dispatch R102, with the empty call stack of R101 before it in the order of 60_exceptions
R207. -/
def Obligations.StepFaultsBeforeFetching : Prop :=
  ∀ (e : Event) (s : State), TakesStep e s →
    (s.cs = [] → event e s = .next (emptyRecord s)) ∧
      ∀ f rest, s.cs = f :: rest → s.progLen ≤ f.ip →
        event e s = .next (faultRecord s .invalidIp f.ip)

/-- 40_dispatch R100. That a step that does not exist is a named stop is log entry 5. -/
def Obligations.StepOnlyInRunningOrByCommand : Prop :=
  ∀ s : State,
    (s.estate = .running → step s = engineStep s) ∧
      (s.estate = .paused → step s = .fault .enginePaused ∧ hostStep s = engineStep s) ∧
      (s.estate = .idle → step s = .fault .engineIdle ∧ hostStep s = .next s) ∧
      (s.estate = .halted → step s = .fault .engineHalted ∧ hostStep s = .next s) ∧
      (s.estate = .faulted → step s = .fault .engineFaulted ∧ hostStep s = .next s)

/-- 40_dispatch R105 and 60_exceptions R203 with the causes of R201: a step completes or enters a
fault; no instruction stops the model. That `exec` on an empty call stack takes the fault of
40_dispatch R101 is log entry 6. -/
def Obligations.ExecAlwaysAnswersNext : Prop :=
  ∀ (i : Instr) (s : State), ∃ t, exec i s = .next t ∧
    (s.cs = [] → t = emptyRecord s) ∧
    ∀ f rest, s.cs = f :: rest → CapacityInv s →
      (∃ k ∈ ownCauses s.cfg i, t = faultRecord s k f.ip) ∨
      t.faultCause = s.faultCause ∧ t.faultIp = s.faultIp ∧ t.faultIpv = s.faultIpv ∧
        ((∀ code, i ≠ .halt code) → t.estate = s.estate) ∧
        ∀ code, i = .halt code → t.estate = .halted

/-- 60_exceptions R203 and R202. -/
def Obligations.FaultEntryIsPrecise : Prop :=
  ∀ s t : State, s.estate = .running → step s = .next t → t.estate = .faulted →
    t = { s with
      faultCause := t.faultCause
      faultIp := t.faultIp
      faultIpv := t.faultIpv
      estate := .faulted } ∧
    t.faultCause ≠ .none ∧
    (s.cs = [] → t.faultCause = .emptyCallStack ∧ t.faultIp = 0 ∧ t.faultIpv = false) ∧
    (∀ f rest, s.cs = f :: rest → t.faultIp = f.ip ∧ t.faultIpv = true) ∧
    ∀ u, step t ≠ .next u

/-- 60_exceptions R201, for every configuration and not only the reference one. -/
def Obligations.InstructionCausesExact : Prop :=
  ∀ c : Config, 2 ≤ c.opstackCap → 2 ≤ c.callstackCap → ∀ (i : Instr) (k : FaultCause),
    k ∈ ownCauses c i ↔
      ∃ (s : State) (f : Frame) (rest : List Frame),
        s.cfg = c ∧ s.estate = .running ∧ CapacityInv s ∧ s.cs = f :: rest ∧
          exec i s = .next (faultRecord s k f.ip)

/-- 40_dispatch R104. -/
def Obligations.DefaultAdvanceNeverWraps : Prop :=
  ∀ (i : Instr) (s t : State) (f : Frame) (rest : List Frame),
    s.cs = f :: rest → s.estate ≠ .faulted → exec i s = .next t → t.estate ≠ .faulted →
      (f.ip < s.progLen →
        (advancesByOne i = true ∨ ∃ addr S, i = .jmpif addr ∧ f.stack = 0 :: S) →
          ∃ g, t.cs = g :: rest ∧ g.ip = f.ip + 1 ∧ g.ip.toNat = f.ip.toNat + 1) ∧
      (∀ addr, (i = .jmp addr ∨ ∃ a S, i = .jmpif addr ∧ f.stack = a :: S ∧ a ≠ 0) →
        ∃ g, t.cs = g :: rest ∧ g.ip = addr)

/-- 41_alu R122 with the overflow law of R121. -/
def Obligations.AddEffect : Prop :=
  encode .add = 0x01000000 ∧
    ∀ (s : State) (f : Frame) (rest : List Frame),
      s.cs = f :: rest → f.stack.length ≤ s.cfg.opstackCap →
        (f.stack.length < 2 →
          exec .add s = .next (faultRecord s .insufficientOperands f.ip)) ∧
        ∀ a b S, f.stack = a :: b :: S →
          (s.cfg.overflowMode = .wrap ∨
              (-32768 ≤ a.toInt + b.toInt ∧ a.toInt + b.toInt ≤ 32767) →
            exec .add s = .next
              { s with cs := ⟨BitVec.ofInt 16 (a.toInt + b.toInt) :: S, f.ip + 1⟩ :: rest }) ∧
          (s.cfg.overflowMode = .fault →
              (a.toInt + b.toInt < -32768 ∨ 32767 < a.toInt + b.toInt) →
            exec .add s = .next (faultRecord s .arithOverflow f.ip))

/-- 41_alu R123 with the overflow law of R121. -/
def Obligations.SubEffect : Prop :=
  encode .sub = 0x02000000 ∧
    ∀ (s : State) (f : Frame) (rest : List Frame),
      s.cs = f :: rest → f.stack.length ≤ s.cfg.opstackCap →
        (f.stack.length < 2 →
          exec .sub s = .next (faultRecord s .insufficientOperands f.ip)) ∧
        ∀ a b S, f.stack = a :: b :: S →
          (s.cfg.overflowMode = .wrap ∨
              (-32768 ≤ a.toInt - b.toInt ∧ a.toInt - b.toInt ≤ 32767) →
            exec .sub s = .next
              { s with cs := ⟨BitVec.ofInt 16 (a.toInt - b.toInt) :: S, f.ip + 1⟩ :: rest }) ∧
          (s.cfg.overflowMode = .fault →
              (a.toInt - b.toInt < -32768 ∨ 32767 < a.toInt - b.toInt) →
            exec .sub s = .next (faultRecord s .arithOverflow f.ip))

/-- 41_alu R124 with the overflow law of R121. -/
def Obligations.MulEffect : Prop :=
  encode .mul = 0x03000000 ∧
    ∀ (s : State) (f : Frame) (rest : List Frame),
      s.cs = f :: rest → f.stack.length ≤ s.cfg.opstackCap →
        (f.stack.length < 2 →
          exec .mul s = .next (faultRecord s .insufficientOperands f.ip)) ∧
        ∀ a b S, f.stack = a :: b :: S →
          (s.cfg.overflowMode = .wrap ∨
              (-32768 ≤ a.toInt * b.toInt ∧ a.toInt * b.toInt ≤ 32767) →
            exec .mul s = .next
              { s with cs := ⟨BitVec.ofInt 16 (a.toInt * b.toInt) :: S, f.ip + 1⟩ :: rest }) ∧
          (s.cfg.overflowMode = .fault →
              (a.toInt * b.toInt < -32768 ∨ 32767 < a.toInt * b.toInt) →
            exec .mul s = .next (faultRecord s .arithOverflow f.ip))

/-- 41_alu R125. -/
def Obligations.DivEffect : Prop :=
  encode .div = 0x04000000 ∧
    ∀ (s : State) (f : Frame) (rest : List Frame),
      s.cs = f :: rest → f.stack.length ≤ s.cfg.opstackCap →
        (f.stack.length < 2 →
          exec .div s = .next (faultRecord s .insufficientOperands f.ip)) ∧
        ∀ a b S, f.stack = a :: b :: S →
          (b = 0 → exec .div s = .next (faultRecord s .divideByZero f.ip)) ∧
          (a.toInt = -32768 ∧ b.toInt = -1 →
            exec .div s = .next (faultRecord s .divideOverflow f.ip)) ∧
          (b ≠ 0 → ¬(a.toInt = -32768 ∧ b.toInt = -1) →
            ∃ r : Value, r.toInt = Int.tdiv a.toInt b.toInt ∧
              exec .div s = .next { s with cs := ⟨r :: S, f.ip + 1⟩ :: rest })

/-- 41_alu R126. -/
def Obligations.ModEffect : Prop :=
  encode .mod = 0x05000000 ∧
    ∀ (s : State) (f : Frame) (rest : List Frame),
      s.cs = f :: rest → f.stack.length ≤ s.cfg.opstackCap →
        (f.stack.length < 2 →
          exec .mod s = .next (faultRecord s .insufficientOperands f.ip)) ∧
        ∀ a b S, f.stack = a :: b :: S →
          (b = 0 → exec .mod s = .next (faultRecord s .divideByZero f.ip)) ∧
          (a.toInt = -32768 ∧ b.toInt = -1 →
            exec .mod s = .next (faultRecord s .divideOverflow f.ip)) ∧
          (b ≠ 0 → ¬(a.toInt = -32768 ∧ b.toInt = -1) →
            ∃ r : Value, r.toInt = a.toInt - b.toInt * Int.tdiv a.toInt b.toInt ∧
              exec .mod s = .next { s with cs := ⟨r :: S, f.ip + 1⟩ :: rest })

/-- 41_alu R127. -/
def Obligations.NotEffect : Prop :=
  encode .not = 0x06000000 ∧
    ∀ (s : State) (f : Frame) (rest : List Frame),
      s.cs = f :: rest → f.stack.length ≤ s.cfg.opstackCap →
        (f.stack.length < 1 →
          exec .not s = .next (faultRecord s .insufficientOperands f.ip)) ∧
        ∀ a S, f.stack = a :: S →
          exec .not s = .next
            { s with cs := ⟨(if a = 0 then 1 else 0) :: S, f.ip + 1⟩ :: rest }

/-- 41_alu R128. -/
def Obligations.OrEffect : Prop :=
  encode .or = 0x07000000 ∧
    ∀ (s : State) (f : Frame) (rest : List Frame),
      s.cs = f :: rest → f.stack.length ≤ s.cfg.opstackCap →
        (f.stack.length < 2 →
          exec .or s = .next (faultRecord s .insufficientOperands f.ip)) ∧
        ∀ a b S, f.stack = a :: b :: S →
          exec .or s = .next
            { s with cs := ⟨(if a ≠ 0 ∨ b ≠ 0 then 1 else 0) :: S, f.ip + 1⟩ :: rest }

/-- 41_alu R129. -/
def Obligations.AndEffect : Prop :=
  encode .and = 0x08000000 ∧
    ∀ (s : State) (f : Frame) (rest : List Frame),
      s.cs = f :: rest → f.stack.length ≤ s.cfg.opstackCap →
        (f.stack.length < 2 →
          exec .and s = .next (faultRecord s .insufficientOperands f.ip)) ∧
        ∀ a b S, f.stack = a :: b :: S →
          exec .and s = .next
            { s with cs := ⟨(if a ≠ 0 ∧ b ≠ 0 then 1 else 0) :: S, f.ip + 1⟩ :: rest }

/-- 41_alu R130. -/
def Obligations.EqEffect : Prop :=
  encode .eq = 0x09000000 ∧
    ∀ (s : State) (f : Frame) (rest : List Frame),
      s.cs = f :: rest → f.stack.length ≤ s.cfg.opstackCap →
        (f.stack.length < 2 →
          exec .eq s = .next (faultRecord s .insufficientOperands f.ip)) ∧
        ∀ a b S, f.stack = a :: b :: S →
          exec .eq s = .next
            { s with cs := ⟨(if a = b then 1 else 0) :: S, f.ip + 1⟩ :: rest }

/-- 41_alu R131. -/
def Obligations.GtEffect : Prop :=
  encode .gt = 0x0A000000 ∧
    ∀ (s : State) (f : Frame) (rest : List Frame),
      s.cs = f :: rest → f.stack.length ≤ s.cfg.opstackCap →
        (f.stack.length < 2 →
          exec .gt s = .next (faultRecord s .insufficientOperands f.ip)) ∧
        ∀ a b S, f.stack = a :: b :: S →
          exec .gt s = .next
            { s with cs := ⟨(if a.toInt > b.toInt then 1 else 0) :: S, f.ip + 1⟩ :: rest }

/-- 41_alu R132. -/
def Obligations.GteEffect : Prop :=
  encode .gte = 0x0B000000 ∧
    ∀ (s : State) (f : Frame) (rest : List Frame),
      s.cs = f :: rest → f.stack.length ≤ s.cfg.opstackCap →
        (f.stack.length < 2 →
          exec .gte s = .next (faultRecord s .insufficientOperands f.ip)) ∧
        ∀ a b S, f.stack = a :: b :: S →
          exec .gte s = .next
            { s with cs := ⟨(if a.toInt ≥ b.toInt then 1 else 0) :: S, f.ip + 1⟩ :: rest }

/-- 42_jump R150. -/
def Obligations.JmpEffect : Prop :=
  ∀ addr : Idx, encode (.jmp addr) = 0x0C000000 ||| addr.setWidth 32 ∧
    ∀ (s : State) (f : Frame) (rest : List Frame), s.cs = f :: rest →
      ∃ t, exec (.jmp addr) s = .next t ∧ t = { s with cs := ⟨f.stack, addr⟩ :: rest } ∧
        (s.estate = .running → s.progLen ≤ addr →
          step t = .next (faultRecord t .invalidIp addr))

/-- 42_jump R151. -/
def Obligations.JmpifEffect : Prop :=
  ∀ addr : Idx, encode (.jmpif addr) = 0x0D000000 ||| addr.setWidth 32 ∧
    ∀ (s : State) (f : Frame) (rest : List Frame), s.cs = f :: rest →
      (f.stack = [] → s.cfg.uniformPrecheck = false →
        exec (.jmpif addr) s = .next (faultRecord s .operandUnderflow f.ip)) ∧
      (f.stack = [] → s.cfg.uniformPrecheck = true →
        exec (.jmpif addr) s = .next (faultRecord s .insufficientOperands f.ip)) ∧
      ∀ a S, f.stack = a :: S →
        ∃ t, exec (.jmpif addr) s = .next t ∧
          t = { s with cs := ⟨S, if a = 0 then f.ip + 1 else addr⟩ :: rest } ∧
          (s.estate = .running → a ≠ 0 → s.progLen ≤ addr →
            step t = .next (faultRecord t .invalidIp addr))

/-- 43_stack_globals R160. -/
def Obligations.PopEffect : Prop :=
  encode .pop = 0x0E000000 ∧
    ∀ (s : State) (f : Frame) (rest : List Frame), s.cs = f :: rest →
      (f.stack = [] → s.cfg.uniformPrecheck = false →
        exec .pop s = .next (faultRecord s .operandUnderflow f.ip)) ∧
      (f.stack = [] → s.cfg.uniformPrecheck = true →
        exec .pop s = .next (faultRecord s .insufficientOperands f.ip)) ∧
      ∀ v S, f.stack = v :: S →
        exec .pop s = .next { s with cs := ⟨S, f.ip + 1⟩ :: rest }

/-- 43_stack_globals R161. -/
def Obligations.PushEffect : Prop :=
  ∀ v : Value, encode (.push v) = 0x0F000000 ||| v.setWidth 32 ∧
    ∀ (s : State) (f : Frame) (rest : List Frame), s.cs = f :: rest →
      (f.stack.length = s.cfg.opstackCap →
        exec (.push v) s = .next (faultRecord s .operandOverflow f.ip)) ∧
      (f.stack.length < s.cfg.opstackCap →
        exec (.push v) s = .next { s with cs := ⟨v :: f.stack, f.ip + 1⟩ :: rest })

/-- 43_stack_globals R162. -/
def Obligations.StoreEffect : Prop :=
  ∀ addr : Idx, encode (.store addr) = 0x10000000 ||| addr.setWidth 32 ∧
    ∀ (s : State) (f : Frame) (rest : List Frame), s.cs = f :: rest →
      (f.stack = [] → s.cfg.uniformPrecheck = false →
        exec (.store addr) s = .next (faultRecord s .operandUnderflow f.ip)) ∧
      (f.stack = [] → s.cfg.uniformPrecheck = true →
        exec (.store addr) s = .next (faultRecord s .insufficientOperands f.ip)) ∧
      ∀ v S, f.stack = v :: S →
        ∃ t, exec (.store addr) s = .next t ∧
          t = { s with g := t.g, cs := ⟨S, f.ip + 1⟩ :: rest } ∧
          globalRead t addr = v ∧ ∀ a, a ≠ addr → globalRead t a = globalRead s a

/-- 43_stack_globals R163. -/
def Obligations.LoadEffect : Prop :=
  ∀ addr : Idx, encode (.load addr) = 0x11000000 ||| addr.setWidth 32 ∧
    (∀ (s : State) (f : Frame) (rest : List Frame), s.cs = f :: rest →
      (f.stack.length = s.cfg.opstackCap →
        exec (.load addr) s = .next (faultRecord s .operandOverflow f.ip)) ∧
      (f.stack.length < s.cfg.opstackCap →
        exec (.load addr) s = .next
          { s with cs := ⟨globalRead s addr :: f.stack, f.ip + 1⟩ :: rest })) ∧
    ∀ (es : List Event) (s t : State), events (.host .reset :: es) s = .next t →
      (∀ (before later : List Event) (e : Event) (u v : State), es = before ++ e :: later →
        events (.host .reset :: before) s = .next u → event e u = .next v →
          ¬Stores e addr u v) →
        globalRead t addr = 0

/-- 44_call R170. -/
def Obligations.CallEffect : Prop :=
  ∀ addr : Idx, encode (.call addr) = 0x12000000 ||| addr.setWidth 32 ∧
    ∀ (s : State) (f : Frame) (rest : List Frame), s.cs = f :: rest →
      (s.cs.length = s.cfg.callstackCap →
        exec (.call addr) s = .next (faultRecord s .callOverflow f.ip)) ∧
      (s.cs.length < s.cfg.callstackCap →
        ∃ t, exec (.call addr) s = .next t ∧
          t = { s with cs := ⟨[], addr⟩ :: ⟨f.stack, f.ip + 1⟩ :: rest } ∧
          (s.estate = .running → s.progLen ≤ addr →
            step t = .next (faultRecord t .invalidIp addr)))

/-- 44_call R171. -/
def Obligations.RetEffect : Prop :=
  encode .ret = 0x13000000 ∧
    ∀ (s : State) (f : Frame) (rest : List Frame), s.cs = f :: rest →
      ∃ t, exec .ret s = .next t ∧ t = { s with cs := rest } ∧
        (rest = [] →
          (s.estate = .running → step t = .next (emptyRecord t)) ∧
            (s.estate = .paused → hostStep t = .next (emptyRecord t)))

/-- 44_call R172. -/
def Obligations.RetvalEffect : Prop :=
  encode .retval = 0x14000000 ∧
    ∀ (s : State) (f : Frame) (rest : List Frame), s.cs = f :: rest →
      (f.stack = [] → s.cfg.uniformPrecheck = false →
        exec .retval s = .next (faultRecord s .operandUnderflow f.ip)) ∧
      (f.stack = [] → s.cfg.uniformPrecheck = true →
        exec .retval s = .next (faultRecord s .insufficientOperands f.ip)) ∧
      ∀ v S, f.stack = v :: S →
        (rest = [] → exec .retval s = .next (faultRecord s .emptyCallStack f.ip)) ∧
        ∀ C below, rest = C :: below →
          (C.stack.length = s.cfg.opstackCap →
            exec .retval s = .next (faultRecord s .operandOverflow f.ip)) ∧
          (C.stack.length < s.cfg.opstackCap →
            exec .retval s = .next { s with cs := ⟨v :: C.stack, C.ip⟩ :: below })

/-- 45_output_halt R180, its part on OUT; the order of the channel is `OutputLogOnlyGrows`. -/
def Obligations.OutEffect : Prop :=
  encode .out = 0x15000000 ∧
    ∀ (s : State) (f : Frame) (rest : List Frame), s.cs = f :: rest →
      (f.stack = [] → s.cfg.uniformPrecheck = false →
        exec .out s = .next (faultRecord s .operandUnderflow f.ip)) ∧
      (f.stack = [] → s.cfg.uniformPrecheck = true →
        exec .out s = .next (faultRecord s .insufficientOperands f.ip)) ∧
      ∀ v S, f.stack = v :: S →
        exec .out s = .next
          { s with cs := ⟨S, f.ip + 1⟩ :: rest, outLog := s.outLog ++ [⟨.out, v⟩] }

/-- 45_output_halt R181. -/
def Obligations.HaltEffect : Prop :=
  ∀ code : Value, encode (.halt code) = 0x16000000 ||| code.setWidth 32 ∧
    ∀ (s : State) (f : Frame) (rest : List Frame), s.cs = f :: rest →
      ∃ t, exec (.halt code) s = .next t ∧
        t = { s with
          cs := rest
          halted := true
          haltCode := code
          estate := .halted
          outLog := s.outLog ++ [⟨.halt, code⟩] } ∧
        (∀ u, step t ≠ .next u) ∧ hostStep t = .next t ∧
        ∀ e u, event e t = .next u → e ≠ .host .reset → u.estate = .halted

/-- 41_alu R126's last corner case with the signs of R134: nothing is lost in narrowing to 16 bits.
-/
def Obligations.DivModLaw : Prop :=
  ∀ (s : State) (rest : List Frame) (a b : Value) (S : List Value) (ip : Idx),
    s.cs = ⟨a :: b :: S, ip⟩ :: rest → (a :: b :: S).length ≤ s.cfg.opstackCap →
      b ≠ 0 → ¬(a.toInt = -32768 ∧ b.toInt = -1) →
        ∃ q r : Value,
          exec .div s = .next { s with cs := ⟨q :: S, ip + 1⟩ :: rest } ∧
          exec .mod s = .next { s with cs := ⟨r :: S, ip + 1⟩ :: rest } ∧
          a.toInt = q.toInt * b.toInt + r.toInt ∧ |r.toInt| < |b.toInt| ∧
          (0 ≤ a.toInt → 0 ≤ r.toInt) ∧ (a.toInt ≤ 0 → r.toInt ≤ 0) ∧
          |q.toInt * b.toInt| ≤ |a.toInt|

/-- 95_test_vectors L1.5 and the corner cases of 41_alu R122, R124, R128, R129, R130. -/
def Obligations.CommutativeOpcodes : Prop :=
  ∀ i ∈ [Instr.add, .mul, .and, .or, .eq],
    ∀ (s t : State) (rest : List Frame) (a b : Value) (S : List Value) (ip : Idx),
      s.estate ≠ .faulted →
      exec i { s with cs := ⟨a :: b :: S, ip⟩ :: rest } = .next t → t.estate ≠ .faulted →
        exec i { s with cs := ⟨b :: a :: S, ip⟩ :: rest } = .next t

/-- 43_stack_globals R164. -/
def Obligations.PushStoreLoadRoundTrip : Prop :=
  ∀ (s : State) (f : Frame) (rest : List Frame) (a : Idx) (v : Value),
    s.cs = f :: rest → f.stack.length < s.cfg.opstackCap →
      ∃ t u x, exec (.push v) s = .next t ∧ exec (.store a) t = .next u ∧
        exec (.load a) u = .next x ∧ x.cs = ⟨v :: f.stack, f.ip + 3⟩ :: rest ∧
        globalRead x a = v ∧ ∀ b, b ≠ a → globalRead x b = globalRead s b

/-- 95_test_vectors L1.7 and L1.8: whatever the callee did to its own frame. -/
def Obligations.CallThenReturnRestoresCaller : Prop :=
  ∀ (addr : Idx) (s t u : State) (f g : Frame) (rest : List Frame),
    s.cs = f :: rest → s.estate ≠ .faulted → exec (.call addr) s = .next t →
      t.estate ≠ .faulted → u.cs = g :: t.cs.tail →
        exec .ret u = .next { u with cs := ⟨f.stack, f.ip + 1⟩ :: rest } ∧
        ∀ v S, g.stack = v :: S → f.stack.length < u.cfg.opstackCap →
          exec .retval u = .next { u with cs := ⟨v :: f.stack, f.ip + 1⟩ :: rest }

/-- The frame of every instruction, from 40_dispatch R103 and R105. CS has its own frame,
`CallStackFrame`, and G `GlobalsFrame`. -/
def Obligations.ExecFrame : Prop :=
  ∀ (i : Instr) (s t : State), exec i s = .next t →
    (t.cfg = s.cfg ∧ t.imem = s.imem ∧ t.progLen = s.progLen ∧ t.entry = s.entry ∧
      t.draws = s.draws) ∧
    (i ≠ .out → (∀ code, i ≠ .halt code) → t.outLog = s.outLog) ∧
    ((∀ code, i ≠ .halt code) → t.halted = s.halted ∧ t.haltCode = s.haltCode) ∧
    (t.faultCause = s.faultCause ∧ t.faultIp = s.faultIp ∧ t.faultIpv = s.faultIpv ∧
        (t.estate = s.estate ∨ ∃ code, i = .halt code) ∨
      t.estate = .faulted ∧ t.cs = s.cs ∧ t.g = s.g ∧ t.outLog = s.outLog ∧
        t.halted = s.halted ∧ t.haltCode = s.haltCode)

/-- 10_state R36, last sentence, and 20_memory R62; 70 R237, no port can write G or a frame. -/
def Obligations.GlobalsFrame : Prop :=
  (∀ (i : Instr) (s t : State), exec i s = .next t →
    ∀ a, (i ≠ .store a → globalRead t a = globalRead s a)) ∧
  (∀ (i : Instr) (s t : State) (g : List (Nat × BitVec 16)),
    (∀ a, i ≠ .load a) → (∀ a, i ≠ .store a) → exec i s = .next t →
      exec i { s with g := g } = .next { t with g := g }) ∧
  (∀ (addr : Idx) (s t : State) (g : List (Nat × BitVec 16)), exec (.store addr) s = .next t →
    ∃ h, exec (.store addr) { s with g := g } = .next { t with g := h }) ∧
  (∀ (e : Event) (s t : State) (a : Idx), e ≠ .host .reset → event e s = .next t →
    globalRead t a ≠ globalRead s a → Stores e a s t) ∧
  ∀ (act : HostAction) (s t : State) (r : HostReply), (∀ w, act ≠ .writeReg 0x00 w) →
    act ≠ .reset → hostAct act s = .next (r, t) → t.g = s.g ∧ t.cs = s.cs

/-- 10_state R33 and R34: the one exception is RETVAL. -/
def Obligations.CallStackFrame : Prop :=
  ∀ (i : Instr) (s t : State) (f : Frame) (rest : List Frame),
    s.cs = f :: rest → exec i s = .next t →
      rest <:+ t.cs ∨
        i = .retval ∧ ∃ C below v, rest = C :: below ∧ t.cs = ⟨v :: C.stack, C.ip⟩ :: below

/-- 20_memory R73. -/
def Obligations.ProgramConstantWhileStarted : Prop :=
  (∀ (i : Instr) (s t : State), exec i s = .next t → t.imem = s.imem) ∧
    ∀ (e : Event) (s t : State), s.estate ≠ .idle → e ≠ .host .reset → event e s = .next t →
      t.imem = s.imem ∧ t.progLen = s.progLen ∧ t.entry = s.entry

/-- 10_state R46. The premise on the configuration is log entry 2. -/
def Obligations.InvAtReset : Prop :=
  EngineInv State.reset ∧
    ∀ (c : Config) (n : Nat), c.wellFormed = true → EngineInv (State.resetWith c n)

/-- The headline invariant: 10_state R47, 40_dispatch R112, 45_output_halt R182, 44_call R173. -/
def Obligations.InvKeptByStep : Prop :=
  ∀ s t : State, EngineInv s → step s = .next t → EngineInv t

/-- 70 R230 to R240 against the invariant of `InvKeptByStep`. `LoadedInv` rests on START's refusal
of an unwritten word (70 R240, log entry 4), `CapacityInv` on CALLSTACK_CAP ≥ 1 (log entry 2),
`Memory.wf` on the ignored write of IMEM[65535] (20_memory R61, 70 R239, log entry 11). -/
def Obligations.InvKeptByHost : Prop :=
  ∀ (a : HostAction) (s t : State) (r : HostReply), EngineInv s →
    hostAct a s = .next (r, t) → EngineInv t

/-- 70 R246 and 40_dispatch R111, given the launch check of log entry 4. -/
def Obligations.RunningEngineNeverStops : Prop :=
  ∀ s : State, EngineInv s →
    (s.estate = .running → ∃ t, step s = .next t) ∧
      (s.estate = .paused → ∃ t, hostStep s = .next t)

/-- 44_call R173, first sentence, with no assumption on the rest of the state. -/
def Obligations.ReturnAddressesKept : Prop :=
  ∀ s t : State, ReturnInv s → step s = .next t → ReturnInv t

/-- 10_state R38. -/
def Obligations.HaltedSetOnlyByHalt : Prop :=
  State.reset.halted = false ∧
    (∀ (e : Event) (s t : State), event e s = .next t →
      (s.halted = true → t.halted = false → e = .host .reset) ∧
      (s.halted = false → t.halted = true →
        ∃ f rest code, s.cs = f :: rest ∧ fetchWord s f.ip = some (encode (.halt code)) ∧
          exec (.halt code) s = .next t)) ∧
    ∀ s : State, StatusInv s → s.halted = true → ∀ t, step s ≠ .next t

/-- 45_output_halt R180: events in order, none lost, duplicated or merged. -/
def Obligations.OutputLogOnlyGrows : Prop :=
  ∀ (e : Event) (s t : State), e ≠ .host .reset → event e s = .next t →
    (t.outLog = s.outLog ∨ ∃ x, t.outLog = s.outLog ++ [x]) ∧
      (s.estate ≠ .faulted → t.estate = .faulted → t.outLog = s.outLog)

/-- 10_state R46, for the host's reset of any state and for `State.reset`. -/
def Obligations.ResetState : Prop :=
  ∀ s : State, ∃ t, event (.host .reset) s = .next t ∧
    ∀ u ∈ [t, State.reset],
      u.cs = [] ∧ (∀ a, globalRead u a = 0) ∧ u.halted = false ∧ u.estate = .idle ∧
      causeCode u.faultCause = 0 ∧ u.faultIp = 0 ∧ u.faultIpv = false ∧ u.haltCode = 0 ∧
      u.outLog = [] ∧ u.progLen = 0 ∧ u.entry = 0 ∧ ∀ i, imemWord u i = none

/-- 70 R232. -/
def Obligations.ProgramLoadInIdle : Prop :=
  ∀ s : State,
    (s.estate = .idle →
      (∀ i w, i ≠ 0xFFFF#16 → ∃ t, event (.host (.writeImem i w)) s = .next t ∧
        imemWord t i = some w ∧ (∀ j, j ≠ i → imemWord t j = imemWord s j) ∧
        t = { s with imem := t.imem }) ∧
      ∀ v, event (.host (.writeReg 0x05 v)) s = .next { s with progLen := v.extractLsb' 0 16 } ∧
        event (.host (.writeReg 0x04 v)) s = .next { s with entry := v.extractLsb' 0 16 }) ∧
    (s.estate ≠ .idle →
      (∀ i w, event (.host (.writeImem i w)) s = .next s) ∧
        ∀ v, event (.host (.writeReg 0x05 v)) s = .next s ∧
          event (.host (.writeReg 0x04 v)) s = .next s)

/-- 70 R233, R234; the refusal is 70 R240 and log entry 4. -/
def Obligations.StartAndRunCommands : Prop :=
  (∀ w : BitVec 32, w.extractLsb' 0 3 = 1#3 → ∀ s : State,
    (s.estate = .idle →
      ((∀ i : Idx, i < s.progLen → ∃ x, imemWord s i = some x) →
        event (.host (.writeReg 0x00 w)) s = .next
          { s with cs := [⟨[], s.entry⟩], estate := .paused }) ∧
      ∀ i : Idx, i < s.progLen → imemWord s i = none →
        ∃ j : Idx, j ≤ i ∧ imemWord s j = none ∧
          event (.host (.writeReg 0x00 w)) s = .refused (.unwrittenWord j)) ∧
    (s.estate ≠ .idle → event (.host (.writeReg 0x00 w)) s = .next s)) ∧
  (∀ w : BitVec 32, w.extractLsb' 0 3 = 2#3 → ∀ s : State,
    (s.estate = .paused →
      event (.host (.writeReg 0x00 w)) s = .next { s with estate := .running }) ∧
    (s.estate ≠ .paused → event (.host (.writeReg 0x00 w)) s = .next s)) ∧
  ∀ (a : HostAction) (s t : State), s.estate = .running → a ≠ .reset →
    event (.host a) s = .next t → t.estate = .running

/-- 70 R235. -/
def Obligations.StepCommand : Prop :=
  ∀ s : State,
    (∀ w : BitVec 32, w.extractLsb' 0 3 = 4#3 →
      (s.estate = .paused → event (.host (.writeReg 0x00 w)) s = engineStep s) ∧
        (s.estate ≠ .paused → event (.host (.writeReg 0x00 w)) s = .next s)) ∧
    ∀ t, s.estate = .paused → engineStep s = .next t →
      (t.estate = .halted ∨ t.estate = .faulted ∨ t.estate = .paused) ∧
      (t.estate = .halted ↔ ∃ f rest code, s.cs = f :: rest ∧
        fetchWord s f.ip = some (encode (.halt code)) ∧ exec (.halt code) s = .next t) ∧
      (t.estate = .faulted ↔ t = emptyRecord s ∨
        ∃ f rest c, s.cs = f :: rest ∧ c ≠ .none ∧ t = faultRecord s c f.ip)

/-- 70 R236, every row. That START's row needs every word of the program written is 70 R240 and log
entry 4. -/
def Obligations.LifecycleTransitions : Prop :=
  (∀ (e : Event) (s t : State), event e s = .next t →
    (e = .host .reset ∧ t.estate = .idle) ∨
    (e ≠ .host .reset ∧ t.estate = s.estate) ∨
    (∃ w, e = .host (.writeReg 0x00 w) ∧ w.extractLsb' 0 3 = 1#3 ∧ s.estate = .idle ∧
      t.estate = .paused) ∨
    (∃ w, e = .host (.writeReg 0x00 w) ∧ w.extractLsb' 0 3 = 2#3 ∧ s.estate = .paused ∧
      t.estate = .running) ∨
    (∃ w, e = .host (.writeReg 0x00 w) ∧ w.extractLsb' 0 3 = 4#3 ∧ s.estate = .paused ∧
      (t.estate = .halted ∨ t.estate = .faulted)) ∨
    (e = .engine ∧ s.estate = .running ∧ (t.estate = .halted ∨ t.estate = .faulted))) ∧
  (∀ (e : Event) (s t : State), s.estate = .halted ∨ s.estate = .faulted → e ≠ .host .reset →
    event e s = .next t → t = { s with draws := t.draws }) ∧
  (∀ s : State, ∃ t, event (.host .reset) s = .next t ∧ t.estate = .idle) ∧
  (∀ s : State, s.estate = .idle →
    (∀ i w, ∃ t, event (.host (.writeImem i w)) s = .next t ∧ t.estate = .idle) ∧
    ∀ n ∈ [0x04#8, 0x05#8], ∀ w,
      ∃ t, event (.host (.writeReg n w)) s = .next t ∧ t.estate = .idle) ∧
  (∀ (s : State) (w : BitVec 32), s.estate = .idle → w.extractLsb' 0 3 = 1#3 →
    (∀ i : Idx, i < s.progLen → ∃ x, imemWord s i = some x) →
      ∃ t, event (.host (.writeReg 0x00 w)) s = .next t ∧ t.estate = .paused) ∧
  (∀ (s : State) (w : BitVec 32), s.estate = .paused → w.extractLsb' 0 3 = 2#3 →
    ∃ t, event (.host (.writeReg 0x00 w)) s = .next t ∧ t.estate = .running) ∧
  (∀ (e : Event) (s : State), TakesStep e s →
    (∀ code, CurrentInstr s (.halt code) →
      ∃ t, event e s = .next t ∧ t.estate = .halted) ∧
    (s.cs = [] → ∃ t, event e s = .next t ∧ t.estate = .faulted) ∧
    (∀ f rest, s.cs = f :: rest →
      (s.progLen ≤ f.ip ∨ ∃ w r, fetchWord s f.ip = some w ∧ decode w = .error r) →
        ∃ t, event e s = .next t ∧ t.estate = .faulted) ∧
    ∀ i t, CurrentInstr s i → (∀ code, i ≠ .halt code) → exec i s = .next t →
      event e s = .next t ∧ (t.estate = s.estate ∨
        t.estate = .faulted ∧ ∃ k f rest, s.cs = f :: rest ∧ k ≠ .none ∧
          t = faultRecord s k f.ip)) ∧
  ∀ (s : State) (w : BitVec 32), s.estate = .halted ∨ s.estate = .faulted →
    event (.host (.writeReg 0x00 w)) s = .next s

/-- 70 R237, its table of registers. -/
def Obligations.HostRegisterLayout : Prop :=
  ∀ s : State, s.estate ≠ .running →
    readHostReg s 0x00 = (0, s) ∧
    (∃ w, readHostReg s 0x01 = (w, s) ∧ w.extractLsb' 0 3 = estateCode s.estate ∧
      w.getLsbD 3 = s.halted ∧ w.extractLsb' 4 28 = 0) ∧
    (∃ w, readHostReg s 0x02 = (w, s) ∧ w.extractLsb' 0 8 = causeCode s.faultCause ∧
      w.getLsbD 8 = s.faultIpv ∧ w.extractLsb' 9 7 = 0 ∧ w.extractLsb' 16 16 = s.faultIp) ∧
    readHostReg s 0x03 = (s.haltCode.setWidth 32, s) ∧
    readHostReg s 0x04 = (s.entry.setWidth 32, s) ∧
    readHostReg s 0x05 = (s.progLen.setWidth 32, s) ∧
    (∃ w, readHostReg s 0x06 = (w, s) ∧ w.extractLsb' 17 15 = 0 ∧
      (s.cs.length < 131072 → w.toNat = s.cs.length)) ∧
    ∀ n : BitVec 8, 0x07#8 ≤ n → readHostReg s n = (0, s)

/-- 70 R238 and the ports of R237. The order of a frame's entries is log entry 10. -/
def Obligations.HostReadsHaveNoEffect : Prop :=
  (∀ (a : HostAction) (s t : State) (r : HostReply),
    (∀ n w, a ≠ .writeReg n w) → (∀ i w, a ≠ .writeImem i w) → a ≠ .reset →
      hostAct a s = .next (r, t) → t = { s with draws := t.draws }) ∧
  (∀ s : State, s.estate ≠ .running →
    (∀ a, hostAct (.readGlobal a) s = .next (.value (globalRead s a), s)) ∧
    (∀ i w, i ≠ 0xFFFF#16 → imemWord s i = some w →
      hostAct (.readImem i) s = .next (.word w, s)) ∧
    ∀ (above below : List Frame) (f : Frame), s.cs = above ++ f :: below →
      hostAct (.readFrameIp below.length) s = .next (.value f.ip, s) ∧
      hostAct (.readFrameLength below.length) s = .next (.count f.stack.length, s) ∧
      ∀ (upper lower : List Value) (v : Value), f.stack = upper ++ v :: lower →
        hostAct (.readFrameEntry below.length lower.length) s = .next (.value v, s)) ∧
  ∀ s : State, s.estate = .running →
    ∃ w, hostAct (.readReg 0x01) s = .next (.word w, s) ∧ w.extractLsb' 0 3 = 2#3

/-- 70 R239. -/
def Obligations.IllegalHostWritesIgnored : Prop :=
  ∀ s : State,
    (∀ w : BitVec 32,
      (w.extractLsb' 0 3 = 1#3 ∧ s.estate ≠ .idle ∨
        w.extractLsb' 0 3 = 2#3 ∧ s.estate ≠ .paused ∨
        w.extractLsb' 0 3 = 4#3 ∧ s.estate ≠ .paused ∨
        w.extractLsb' 0 3 ∉ ([1, 2, 4] : List (BitVec 3))) →
      event (.host (.writeReg 0x00 w)) s = .next s) ∧
    (s.estate ≠ .idle → ∀ w, event (.host (.writeReg 0x04 w)) s = .next s ∧
      event (.host (.writeReg 0x05 w)) s = .next s) ∧
    (s.estate ≠ .idle → ∀ i w, event (.host (.writeImem i w)) s = .next s) ∧
    ∀ (n : BitVec 8) (w : BitVec 32), n ≠ 0x00 → n ≠ 0x04 → n ≠ 0x05 →
      event (.host (.writeReg n w)) s = .next s

/-- 70 R240's steps, for every list of words. -/
def Obligations.BootStartsTheProgram : Prop :=
  ∀ (s : State) (program : List IWord) (entry : Idx), program.length ≤ 65535 →
    ∃ t, events (bootEvents program entry) s = .next t ∧
      t.cfg = s.cfg ∧ t.estate = .running ∧ t.cs = [⟨[], entry⟩] ∧
      t.progLen.toNat = program.length ∧ (∀ a, globalRead t a = 0) ∧ t.outLog = [] ∧
      ∀ i : Idx, i.toNat < program.length → fetchWord t i = program[i.toNat]?

/-- 40_dispatch R111, 70 R242 and R246. -/
def Obligations.RunLoopReportsEndsTruly : Prop :=
  (∀ (k : Nat) (s t : State), runLoop k s = .ended t →
    (t.estate = .halted ∨ t.estate = .faulted) ∧ ∀ j, runLoop (k + j) s = .ended t) ∧
  ∀ (k : Nat) (s : State), EngineInv s → s.estate = .running →
    ∃ t, EngineInv t ∧
      (runLoop k s = .ended t ∨ runLoop k s = .notEnded t ∧ t.estate = .running)
end

