-- ==== Sys2Proof/Laws/State.lean ====
section
/-! SUPPORT. What every named update does to every field of State. -/

namespace Sys2Proof.Machine

@[simp] theorem Frame.advance_stack (f : Frame) : f.advance.stack = f.stack := rfl

@[simp] theorem Frame.advance_ip (f : Frame) : f.advance.ip = f.ip + 1 := rfl

@[simp] theorem State.setCs_cfg (s : State) (cs : List Frame) : (s.setCs cs).cfg = s.cfg := rfl

@[simp] theorem State.setCs_imem (s : State) (cs : List Frame) : (s.setCs cs).imem = s.imem := rfl

@[simp] theorem State.setCs_progLen (s : State) (cs : List Frame) :
    (s.setCs cs).progLen = s.progLen := rfl

@[simp] theorem State.setCs_entry (s : State) (cs : List Frame) :
    (s.setCs cs).entry = s.entry := rfl

@[simp] theorem State.setCs_cs (s : State) (cs : List Frame) : (s.setCs cs).cs = cs := rfl

@[simp] theorem State.setCs_g (s : State) (cs : List Frame) : (s.setCs cs).g = s.g := rfl

@[simp] theorem State.setCs_halted (s : State) (cs : List Frame) :
    (s.setCs cs).halted = s.halted := rfl

@[simp] theorem State.setCs_estate (s : State) (cs : List Frame) :
    (s.setCs cs).estate = s.estate := rfl

@[simp] theorem State.setCs_faultCause (s : State) (cs : List Frame) :
    (s.setCs cs).faultCause = s.faultCause := rfl

@[simp] theorem State.setCs_faultIp (s : State) (cs : List Frame) :
    (s.setCs cs).faultIp = s.faultIp := rfl

@[simp] theorem State.setCs_faultIpv (s : State) (cs : List Frame) :
    (s.setCs cs).faultIpv = s.faultIpv := rfl

@[simp] theorem State.setCs_haltCode (s : State) (cs : List Frame) :
    (s.setCs cs).haltCode = s.haltCode := rfl

@[simp] theorem State.setCs_outLog (s : State) (cs : List Frame) :
    (s.setCs cs).outLog = s.outLog := rfl

@[simp] theorem State.setCs_draws (s : State) (cs : List Frame) :
    (s.setCs cs).draws = s.draws := rfl

@[simp] theorem State.globalWrite_cfg (s : State) (a : Idx) (v : Value) :
    (s.globalWrite a v).cfg = s.cfg := rfl

@[simp] theorem State.globalWrite_imem (s : State) (a : Idx) (v : Value) :
    (s.globalWrite a v).imem = s.imem := rfl

@[simp] theorem State.globalWrite_progLen (s : State) (a : Idx) (v : Value) :
    (s.globalWrite a v).progLen = s.progLen := rfl

@[simp] theorem State.globalWrite_entry (s : State) (a : Idx) (v : Value) :
    (s.globalWrite a v).entry = s.entry := rfl

@[simp] theorem State.globalWrite_cs (s : State) (a : Idx) (v : Value) :
    (s.globalWrite a v).cs = s.cs := rfl

@[simp] theorem State.globalWrite_g (s : State) (a : Idx) (v : Value) :
    (s.globalWrite a v).g = if v = 0 then cellsErase s.g a.toNat else cellsSet s.g a.toNat v := rfl

@[simp] theorem State.globalWrite_halted (s : State) (a : Idx) (v : Value) :
    (s.globalWrite a v).halted = s.halted := rfl

@[simp] theorem State.globalWrite_estate (s : State) (a : Idx) (v : Value) :
    (s.globalWrite a v).estate = s.estate := rfl

@[simp] theorem State.globalWrite_faultCause (s : State) (a : Idx) (v : Value) :
    (s.globalWrite a v).faultCause = s.faultCause := rfl

@[simp] theorem State.globalWrite_faultIp (s : State) (a : Idx) (v : Value) :
    (s.globalWrite a v).faultIp = s.faultIp := rfl

@[simp] theorem State.globalWrite_faultIpv (s : State) (a : Idx) (v : Value) :
    (s.globalWrite a v).faultIpv = s.faultIpv := rfl

@[simp] theorem State.globalWrite_haltCode (s : State) (a : Idx) (v : Value) :
    (s.globalWrite a v).haltCode = s.haltCode := rfl

@[simp] theorem State.globalWrite_outLog (s : State) (a : Idx) (v : Value) :
    (s.globalWrite a v).outLog = s.outLog := rfl

@[simp] theorem State.globalWrite_draws (s : State) (a : Idx) (v : Value) :
    (s.globalWrite a v).draws = s.draws := rfl

@[simp] theorem State.imemWrite_cfg (s : State) (i : Idx) (w : IWord) :
    (s.imemWrite i w).cfg = s.cfg := rfl

@[simp] theorem State.imemWrite_imem (s : State) (i : Idx) (w : IWord) :
    (s.imemWrite i w).imem = cellsSet s.imem i.toNat w := rfl

@[simp] theorem State.imemWrite_progLen (s : State) (i : Idx) (w : IWord) :
    (s.imemWrite i w).progLen = s.progLen := rfl

@[simp] theorem State.imemWrite_entry (s : State) (i : Idx) (w : IWord) :
    (s.imemWrite i w).entry = s.entry := rfl

@[simp] theorem State.imemWrite_cs (s : State) (i : Idx) (w : IWord) :
    (s.imemWrite i w).cs = s.cs := rfl

@[simp] theorem State.imemWrite_g (s : State) (i : Idx) (w : IWord) :
    (s.imemWrite i w).g = s.g := rfl

@[simp] theorem State.imemWrite_halted (s : State) (i : Idx) (w : IWord) :
    (s.imemWrite i w).halted = s.halted := rfl

@[simp] theorem State.imemWrite_estate (s : State) (i : Idx) (w : IWord) :
    (s.imemWrite i w).estate = s.estate := rfl

@[simp] theorem State.imemWrite_faultCause (s : State) (i : Idx) (w : IWord) :
    (s.imemWrite i w).faultCause = s.faultCause := rfl

@[simp] theorem State.imemWrite_faultIp (s : State) (i : Idx) (w : IWord) :
    (s.imemWrite i w).faultIp = s.faultIp := rfl

@[simp] theorem State.imemWrite_faultIpv (s : State) (i : Idx) (w : IWord) :
    (s.imemWrite i w).faultIpv = s.faultIpv := rfl

@[simp] theorem State.imemWrite_haltCode (s : State) (i : Idx) (w : IWord) :
    (s.imemWrite i w).haltCode = s.haltCode := rfl

@[simp] theorem State.imemWrite_outLog (s : State) (i : Idx) (w : IWord) :
    (s.imemWrite i w).outLog = s.outLog := rfl

@[simp] theorem State.imemWrite_draws (s : State) (i : Idx) (w : IWord) :
    (s.imemWrite i w).draws = s.draws := rfl

@[simp] theorem State.emit_cfg (s : State) (kind : EventKind) (v : Value) :
    (s.emit kind v).cfg = s.cfg := rfl

@[simp] theorem State.emit_imem (s : State) (kind : EventKind) (v : Value) :
    (s.emit kind v).imem = s.imem := rfl

@[simp] theorem State.emit_progLen (s : State) (kind : EventKind) (v : Value) :
    (s.emit kind v).progLen = s.progLen := rfl

@[simp] theorem State.emit_entry (s : State) (kind : EventKind) (v : Value) :
    (s.emit kind v).entry = s.entry := rfl

@[simp] theorem State.emit_cs (s : State) (kind : EventKind) (v : Value) :
    (s.emit kind v).cs = s.cs := rfl

@[simp] theorem State.emit_g (s : State) (kind : EventKind) (v : Value) :
    (s.emit kind v).g = s.g := rfl

@[simp] theorem State.emit_halted (s : State) (kind : EventKind) (v : Value) :
    (s.emit kind v).halted = s.halted := rfl

@[simp] theorem State.emit_estate (s : State) (kind : EventKind) (v : Value) :
    (s.emit kind v).estate = s.estate := rfl

@[simp] theorem State.emit_faultCause (s : State) (kind : EventKind) (v : Value) :
    (s.emit kind v).faultCause = s.faultCause := rfl

@[simp] theorem State.emit_faultIp (s : State) (kind : EventKind) (v : Value) :
    (s.emit kind v).faultIp = s.faultIp := rfl

@[simp] theorem State.emit_faultIpv (s : State) (kind : EventKind) (v : Value) :
    (s.emit kind v).faultIpv = s.faultIpv := rfl

@[simp] theorem State.emit_haltCode (s : State) (kind : EventKind) (v : Value) :
    (s.emit kind v).haltCode = s.haltCode := rfl

@[simp] theorem State.emit_outLog (s : State) (kind : EventKind) (v : Value) :
    (s.emit kind v).outLog = s.outLog ++ [⟨kind, v⟩] := rfl

@[simp] theorem State.emit_draws (s : State) (kind : EventKind) (v : Value) :
    (s.emit kind v).draws = s.draws := rfl

@[simp] theorem State.setHalted_cfg (s : State) (code : Value) :
    (s.setHalted code).cfg = s.cfg := rfl

@[simp] theorem State.setHalted_imem (s : State) (code : Value) :
    (s.setHalted code).imem = s.imem := rfl

@[simp] theorem State.setHalted_progLen (s : State) (code : Value) :
    (s.setHalted code).progLen = s.progLen := rfl

@[simp] theorem State.setHalted_entry (s : State) (code : Value) :
    (s.setHalted code).entry = s.entry := rfl

@[simp] theorem State.setHalted_cs (s : State) (code : Value) : (s.setHalted code).cs = s.cs := rfl

@[simp] theorem State.setHalted_g (s : State) (code : Value) : (s.setHalted code).g = s.g := rfl

@[simp] theorem State.setHalted_halted (s : State) (code : Value) :
    (s.setHalted code).halted = true := rfl

@[simp] theorem State.setHalted_estate (s : State) (code : Value) :
    (s.setHalted code).estate = .halted := rfl

@[simp] theorem State.setHalted_faultCause (s : State) (code : Value) :
    (s.setHalted code).faultCause = s.faultCause := rfl

@[simp] theorem State.setHalted_faultIp (s : State) (code : Value) :
    (s.setHalted code).faultIp = s.faultIp := rfl

@[simp] theorem State.setHalted_faultIpv (s : State) (code : Value) :
    (s.setHalted code).faultIpv = s.faultIpv := rfl

@[simp] theorem State.setHalted_haltCode (s : State) (code : Value) :
    (s.setHalted code).haltCode = code := rfl

@[simp] theorem State.setHalted_outLog (s : State) (code : Value) :
    (s.setHalted code).outLog = s.outLog := rfl

@[simp] theorem State.setHalted_draws (s : State) (code : Value) :
    (s.setHalted code).draws = s.draws := rfl

@[simp] theorem State.setEstate_cfg (s : State) (e : EngineState) :
    (s.setEstate e).cfg = s.cfg := rfl

@[simp] theorem State.setEstate_imem (s : State) (e : EngineState) :
    (s.setEstate e).imem = s.imem := rfl

@[simp] theorem State.setEstate_progLen (s : State) (e : EngineState) :
    (s.setEstate e).progLen = s.progLen := rfl

@[simp] theorem State.setEstate_entry (s : State) (e : EngineState) :
    (s.setEstate e).entry = s.entry := rfl

@[simp] theorem State.setEstate_cs (s : State) (e : EngineState) : (s.setEstate e).cs = s.cs := rfl

@[simp] theorem State.setEstate_g (s : State) (e : EngineState) : (s.setEstate e).g = s.g := rfl

@[simp] theorem State.setEstate_halted (s : State) (e : EngineState) :
    (s.setEstate e).halted = s.halted := rfl

@[simp] theorem State.setEstate_estate (s : State) (e : EngineState) :
    (s.setEstate e).estate = e := rfl

@[simp] theorem State.setEstate_faultCause (s : State) (e : EngineState) :
    (s.setEstate e).faultCause = s.faultCause := rfl

@[simp] theorem State.setEstate_faultIp (s : State) (e : EngineState) :
    (s.setEstate e).faultIp = s.faultIp := rfl

@[simp] theorem State.setEstate_faultIpv (s : State) (e : EngineState) :
    (s.setEstate e).faultIpv = s.faultIpv := rfl

@[simp] theorem State.setEstate_haltCode (s : State) (e : EngineState) :
    (s.setEstate e).haltCode = s.haltCode := rfl

@[simp] theorem State.setEstate_outLog (s : State) (e : EngineState) :
    (s.setEstate e).outLog = s.outLog := rfl

@[simp] theorem State.setEstate_draws (s : State) (e : EngineState) :
    (s.setEstate e).draws = s.draws := rfl

@[simp] theorem State.raise_cfg (s : State) (cause : FaultCause) (ip : Option Idx) :
    (s.raise cause ip).cfg = s.cfg := rfl

@[simp] theorem State.raise_imem (s : State) (cause : FaultCause) (ip : Option Idx) :
    (s.raise cause ip).imem = s.imem := rfl

@[simp] theorem State.raise_progLen (s : State) (cause : FaultCause) (ip : Option Idx) :
    (s.raise cause ip).progLen = s.progLen := rfl

@[simp] theorem State.raise_entry (s : State) (cause : FaultCause) (ip : Option Idx) :
    (s.raise cause ip).entry = s.entry := rfl

@[simp] theorem State.raise_cs (s : State) (cause : FaultCause) (ip : Option Idx) :
    (s.raise cause ip).cs = s.cs := rfl

@[simp] theorem State.raise_g (s : State) (cause : FaultCause) (ip : Option Idx) :
    (s.raise cause ip).g = s.g := rfl

@[simp] theorem State.raise_halted (s : State) (cause : FaultCause) (ip : Option Idx) :
    (s.raise cause ip).halted = s.halted := rfl

@[simp] theorem State.raise_estate (s : State) (cause : FaultCause) (ip : Option Idx) :
    (s.raise cause ip).estate = .faulted := rfl

@[simp] theorem State.raise_faultCause (s : State) (cause : FaultCause) (ip : Option Idx) :
    (s.raise cause ip).faultCause = cause := rfl

@[simp] theorem State.raise_faultIp (s : State) (cause : FaultCause) (ip : Option Idx) :
    (s.raise cause ip).faultIp = ip.getD 0 := rfl

@[simp] theorem State.raise_faultIpv (s : State) (cause : FaultCause) (ip : Option Idx) :
    (s.raise cause ip).faultIpv = ip.isSome := rfl

@[simp] theorem State.raise_haltCode (s : State) (cause : FaultCause) (ip : Option Idx) :
    (s.raise cause ip).haltCode = s.haltCode := rfl

@[simp] theorem State.raise_outLog (s : State) (cause : FaultCause) (ip : Option Idx) :
    (s.raise cause ip).outLog = s.outLog := rfl

@[simp] theorem State.raise_draws (s : State) (cause : FaultCause) (ip : Option Idx) :
    (s.raise cause ip).draws = s.draws := rfl

@[simp] theorem reinsert_cfg (s : State) (f : Frame) (rest : List Frame) :
    (reinsert s f rest).cfg = s.cfg := rfl

@[simp] theorem reinsert_imem (s : State) (f : Frame) (rest : List Frame) :
    (reinsert s f rest).imem = s.imem := rfl

@[simp] theorem reinsert_progLen (s : State) (f : Frame) (rest : List Frame) :
    (reinsert s f rest).progLen = s.progLen := rfl

@[simp] theorem reinsert_entry (s : State) (f : Frame) (rest : List Frame) :
    (reinsert s f rest).entry = s.entry := rfl

@[simp] theorem reinsert_cs (s : State) (f : Frame) (rest : List Frame) :
    (reinsert s f rest).cs = f :: rest := rfl

@[simp] theorem reinsert_g (s : State) (f : Frame) (rest : List Frame) :
    (reinsert s f rest).g = s.g := rfl

@[simp] theorem reinsert_halted (s : State) (f : Frame) (rest : List Frame) :
    (reinsert s f rest).halted = s.halted := rfl

@[simp] theorem reinsert_estate (s : State) (f : Frame) (rest : List Frame) :
    (reinsert s f rest).estate = s.estate := rfl

@[simp] theorem reinsert_faultCause (s : State) (f : Frame) (rest : List Frame) :
    (reinsert s f rest).faultCause = s.faultCause := rfl

@[simp] theorem reinsert_faultIp (s : State) (f : Frame) (rest : List Frame) :
    (reinsert s f rest).faultIp = s.faultIp := rfl

@[simp] theorem reinsert_faultIpv (s : State) (f : Frame) (rest : List Frame) :
    (reinsert s f rest).faultIpv = s.faultIpv := rfl

@[simp] theorem reinsert_haltCode (s : State) (f : Frame) (rest : List Frame) :
    (reinsert s f rest).haltCode = s.haltCode := rfl

@[simp] theorem reinsert_outLog (s : State) (f : Frame) (rest : List Frame) :
    (reinsert s f rest).outLog = s.outLog := rfl

@[simp] theorem reinsert_draws (s : State) (f : Frame) (rest : List Frame) :
    (reinsert s f rest).draws = s.draws := rfl

@[simp] theorem complete_cfg (s : State) (f : Frame) (rest : List Frame) :
    (complete s f rest).cfg = s.cfg := rfl

@[simp] theorem complete_imem (s : State) (f : Frame) (rest : List Frame) :
    (complete s f rest).imem = s.imem := rfl

@[simp] theorem complete_progLen (s : State) (f : Frame) (rest : List Frame) :
    (complete s f rest).progLen = s.progLen := rfl

@[simp] theorem complete_entry (s : State) (f : Frame) (rest : List Frame) :
    (complete s f rest).entry = s.entry := rfl

@[simp] theorem complete_cs (s : State) (f : Frame) (rest : List Frame) :
    (complete s f rest).cs = f.advance :: rest := rfl

@[simp] theorem complete_g (s : State) (f : Frame) (rest : List Frame) :
    (complete s f rest).g = s.g := rfl

@[simp] theorem complete_halted (s : State) (f : Frame) (rest : List Frame) :
    (complete s f rest).halted = s.halted := rfl

@[simp] theorem complete_estate (s : State) (f : Frame) (rest : List Frame) :
    (complete s f rest).estate = s.estate := rfl

@[simp] theorem complete_faultCause (s : State) (f : Frame) (rest : List Frame) :
    (complete s f rest).faultCause = s.faultCause := rfl

@[simp] theorem complete_faultIp (s : State) (f : Frame) (rest : List Frame) :
    (complete s f rest).faultIp = s.faultIp := rfl

@[simp] theorem complete_faultIpv (s : State) (f : Frame) (rest : List Frame) :
    (complete s f rest).faultIpv = s.faultIpv := rfl

@[simp] theorem complete_haltCode (s : State) (f : Frame) (rest : List Frame) :
    (complete s f rest).haltCode = s.haltCode := rfl

@[simp] theorem complete_outLog (s : State) (f : Frame) (rest : List Frame) :
    (complete s f rest).outLog = s.outLog := rfl

@[simp] theorem complete_draws (s : State) (f : Frame) (rest : List Frame) :
    (complete s f rest).draws = s.draws := rfl

@[simp] theorem State.hostReset_cfg (s : State) : (s.hostReset).cfg = s.cfg := rfl

@[simp] theorem State.hostReset_imem (s : State) : (s.hostReset).imem = [] := rfl

@[simp] theorem State.hostReset_progLen (s : State) : (s.hostReset).progLen = 0 := rfl

@[simp] theorem State.hostReset_entry (s : State) : (s.hostReset).entry = 0 := rfl

@[simp] theorem State.hostReset_cs (s : State) : (s.hostReset).cs = [] := rfl

@[simp] theorem State.hostReset_g (s : State) : (s.hostReset).g = [] := rfl

@[simp] theorem State.hostReset_halted (s : State) : (s.hostReset).halted = false := rfl

@[simp] theorem State.hostReset_estate (s : State) : (s.hostReset).estate = .idle := rfl

@[simp] theorem State.hostReset_faultCause (s : State) : (s.hostReset).faultCause = .none := rfl

@[simp] theorem State.hostReset_faultIp (s : State) : (s.hostReset).faultIp = 0 := rfl

@[simp] theorem State.hostReset_faultIpv (s : State) : (s.hostReset).faultIpv = false := rfl

@[simp] theorem State.hostReset_haltCode (s : State) : (s.hostReset).haltCode = 0 := rfl

@[simp] theorem State.hostReset_outLog (s : State) : (s.hostReset).outLog = [] := rfl

@[simp] theorem State.hostReset_draws (s : State) : (s.hostReset).draws = s.draws := rfl

end Sys2Proof.Machine
end

