-- ==== Sys2Proof/Laws/Cells.lean ====
section
/-! SUPPORT. The laws of the word memories: a read after a write (20_memory R62, R69), and that every
operation keeps the canonical form. -/

namespace Sys2Proof.Machine

variable {w : Nat}

/-- A read after a write, on any list. -/
theorem cellsGet_set (m : List (Nat × BitVec w)) (a b : Nat) (v : BitVec w) :
    cellsGet (cellsSet m a v) b = if b = a then some v else cellsGet m b := by
  induction m with
  | nil => simp [cellsSet, cellsGet]
  | cons c m ih =>
    simp only [cellsSet]
    split
    · simp [cellsGet]
    · split
      · rename_i h
        subst h
        simp only [cellsGet]
        split <;> simp_all
      · simp only [cellsGet, ih]
        by_cases h : b = c.1
        · simp [h]; omega
        · simp [h]

/-- A read after an erasure, on any list. -/
theorem cellsGet_erase (m : List (Nat × BitVec w)) (a b : Nat) :
    cellsGet (cellsErase m a) b = if b = a then none else cellsGet m b := by
  induction m with
  | nil => simp [cellsErase, cellsGet]
  | cons c m ih =>
    simp only [cellsErase] at ih ⊢
    by_cases hc : c.1 = a
    · simp only [List.filter_cons, hc, ne_eq, not_true_eq_false, decide_false, Bool.false_eq_true,
        if_false, ih, cellsGet]
      by_cases h : b = a <;> simp [h]
    · simp only [List.filter_cons, hc, ne_eq, not_false_eq_true, decide_true, if_true, cellsGet, ih]
      by_cases h : b = c.1
      · simp [h, hc]
      · simp [h]

/-- A cell of a written list is the written one or was there before. -/
theorem mem_cellsSet {m : List (Nat × BitVec w)} {a : Nat} {v : BitVec w} {c : Nat × BitVec w}
    (h : c ∈ cellsSet m a v) : c = (a, v) ∨ c ∈ m := by
  induction m with
  | nil => simpa [cellsSet] using h
  | cons d m ih =>
    simp only [cellsSet] at h
    split at h
    · simpa using h
    · split at h
      · rcases List.mem_cons.1 h with h | h
        · exact .inl h
        · exact .inr (List.mem_cons_of_mem _ h)
      · rcases List.mem_cons.1 h with h | h
        · exact .inr (h ▸ List.mem_cons_self)
        · exact (ih h).imp_right (List.mem_cons_of_mem _)

/-- A write at an index below the bound keeps the canonical form. -/
theorem cellsSet_wf {bound a : Nat} {m : List (Nat × BitVec w)} (v : BitVec w)
    (h : cellsWf bound m) (ha : a < bound) : cellsWf bound (cellsSet m a v) := by
  refine ⟨?_, fun c hc => ?_⟩
  · replace h := h.1
    induction m with
    | nil => simp [cellsSet]
    | cons c m ih =>
      simp only [List.map_cons, List.pairwise_cons, List.mem_map] at h
      simp only [cellsSet]
      split
      · rename_i hlt
        simp only [List.map_cons, List.pairwise_cons, List.mem_cons, List.mem_map]
        refine ⟨?_, ?_, h.2⟩
        · rintro x (rfl | ⟨d, hd, rfl⟩)
          · exact hlt
          · exact Nat.lt_trans hlt (h.1 _ ⟨d, hd, rfl⟩)
        · rintro x ⟨d, hd, rfl⟩
          exact h.1 _ ⟨d, hd, rfl⟩
      · split
        · rename_i heq
          subst heq
          simp only [List.map_cons, List.pairwise_cons, List.mem_map]
          exact ⟨h.1, h.2⟩
        · rename_i h1 h2
          simp only [List.map_cons, List.pairwise_cons, List.mem_map]
          refine ⟨?_, ih h.2⟩
          rintro x ⟨d, hd, rfl⟩
          rcases mem_cellsSet hd with rfl | hd
          · simp only; omega
          · exact h.1 _ ⟨d, hd, rfl⟩
  · rcases mem_cellsSet hc with rfl | hc
    · exact ha
    · exact h.2 _ hc

/-- An erasure keeps the canonical form. -/
theorem cellsErase_wf {bound a : Nat} {m : List (Nat × BitVec w)} (h : cellsWf bound m) :
    cellsWf bound (cellsErase m a) := by
  refine ⟨?_, fun c hc => h.2 _ (List.mem_filter.1 hc).1⟩
  exact List.Pairwise.sublist (List.filter_sublist.map _) h.1

/-- An index below every listed one reads as unlisted. -/
theorem cellsGet_none_of_lt {m : List (Nat × BitVec w)} {a : Nat}
    (h : ∀ c ∈ m, a < c.1) : cellsGet m a = none := by
  induction m with
  | nil => rfl
  | cons c m ih =>
    have := h c List.mem_cons_self
    simp only [cellsGet]
    rw [if_neg (by omega), ih fun d hd => h d (List.mem_cons_of_mem _ hd)]

/-- G after a write (20_memory R62), in every state. -/
theorem globalRead_globalWrite (s : State) (a b : Idx) (v : Value) :
    globalRead (s.globalWrite a v) b = if b = a then v else globalRead s b := by
  simp only [globalRead, State.globalWrite_g]
  have hab : (b.toNat = a.toNat) = (b = a) := by simp [BitVec.toNat_inj]
  split
  · simp only [cellsGet_erase, hab]
    split <;> simp_all
  · simp only [cellsGet_set, hab]
    split <;> simp

/-- IMEM after a host write (70 R232), in every state. -/
theorem imemWord_imemWrite (s : State) (i j : Idx) (x : IWord) :
    imemWord (s.imemWrite i x) j = if j = i then some x else imemWord s j := by
  simp only [imemWord, State.imemWrite_imem, cellsGet_set, BitVec.toNat_inj]

/-- Writing G keeps the canonical form. -/
theorem Memory.wf_globalWrite {s : State} (h : Memory.wf s) (a : Idx) (v : Value) :
    Memory.wf (s.globalWrite a v) := by
  obtain ⟨hi, hg, hz⟩ := h
  refine ⟨hi, ?_, ?_⟩
  · simp only [State.globalWrite_g]
    split
    · exact cellsErase_wf hg
    · exact cellsSet_wf v hg a.isLt
  · simp only [State.globalWrite_g]
    split
    · exact fun c hc => hz _ (List.mem_filter.1 hc).1
    · intro c hc
      rcases mem_cellsSet hc with rfl | hc
      · assumption
      · exact hz _ hc

/-- Writing IMEM at an index that exists keeps the canonical form. -/
theorem Memory.wf_imemWrite {s : State} (h : Memory.wf s) {i : Idx} (x : IWord)
    (hi : i.toNat < 65535) : Memory.wf (s.imemWrite i x) :=
  ⟨cellsSet_wf x h.1 hi, h.2.1, h.2.2⟩

/-- The form depends on the two memories alone. -/
theorem Memory.wf_congr {s t : State} (hi : t.imem = s.imem) (hg : t.g = s.g) (h : Memory.wf s) :
    Memory.wf t := by
  simpa only [Memory.wf, hi, hg] using h

theorem Memory.wf_resetWith (c : Config) (n : Nat) : Memory.wf (State.resetWith c n) := by
  simp [Memory.wf, cellsWf, State.resetWith]

theorem Memory.wf_reset : Memory.wf State.reset := Memory.wf_resetWith _ _

end Sys2Proof.Machine
end

