-- ==== Sys2Proof/Laws/Decode.lean ====
section
/-! SUPPORT. The fields of a word put together from its fields, and the decoder of each opcode. -/

namespace Sys2Proof

/-- A word is its three fields. -/
theorem word_of_fields (w : IWord) : opField w ++ rsvField w ++ immField w = w := by
  simp only [opField, rsvField, immField]
  ext i hi
  simp only [BitVec.getElem_append, BitVec.getElem_extractLsb']
  split
  · simp [BitVec.getLsbD_eq_getElem hi]
  · rename_i h1
    split
    · have : 16 + (i - 16) = i := by omega
      simp [this, BitVec.getLsbD_eq_getElem hi]
    · have : 24 + (i - 16 - 8) = i := by omega
      simp [this, BitVec.getLsbD_eq_getElem hi]

theorem opField_append (op rsv : BitVec 8) (imm : BitVec 16) :
    opField (op ++ rsv ++ imm) = op := by
  ext i hi
  simp only [opField, BitVec.getElem_extractLsb', BitVec.getLsbD_append]
  rw [if_neg (by omega), if_neg (by omega)]
  have : 24 + i - 16 - 8 = i := by omega
  simp [this, BitVec.getLsbD_eq_getElem hi]

theorem rsvField_append (op rsv : BitVec 8) (imm : BitVec 16) :
    rsvField (op ++ rsv ++ imm) = rsv := by
  ext i hi
  simp only [rsvField, BitVec.getElem_extractLsb', BitVec.getLsbD_append]
  rw [if_neg (by omega), if_pos (by omega)]
  have : 16 + i - 16 = i := by omega
  simp [this, BitVec.getLsbD_eq_getElem hi]

theorem immField_append (op rsv : BitVec 8) (imm : BitVec 16) :
    immField (op ++ rsv ++ imm) = imm := by
  ext i hi
  simp only [immField, BitVec.getElem_extractLsb', BitVec.getLsbD_append]
  rw [if_pos (by omega)]
  simp [BitVec.getLsbD_eq_getElem hi]

/-- An instruction's word as the opcode patterns write it: `op << 24 | imm` (30_encoding R84). -/
theorem encode_eq_or (i : Instr) :
    encode i = (opcodeOf i).setWidth 32 <<< 24 ||| (immOf i).setWidth 32 := by
  refine BitVec.eq_of_getLsbD_eq fun j hj => ?_
  simp only [encode, BitVec.getLsbD_append, BitVec.getLsbD_or, BitVec.getLsbD_shiftLeft,
    BitVec.getLsbD_setWidth, hj, decide_true, Bool.true_and]
  split
  · have : j < 24 := by omega
    simp [this]
  · have hi : (immOf i).getLsbD j = false := BitVec.getLsbD_of_ge _ _ (by omega)
    split
    · have : j < 24 := by omega
      simp [this, hi]
    · have h1 : ¬j < 24 := by omega
      have h2 : j - 16 - 8 = j - 24 := by omega
      have h3 : j - 24 < 32 := by omega
      simp [hi, h1, h2, h3]

/-- A word whose opcode the map does not list is refused under that name (30_encoding R86). -/
theorem decode_reservedOpcode {w : IWord} (h : decodeOpcode (opField w) = none) :
    decode w = .error (.reservedOpcode (opField w)) := by
  simp [decode, h]

/-- Everything `decode` can answer with an instruction (30_encoding R85). -/
theorem decode_ok {w : IWord} {i : Instr} (h : decode w = .ok i) :
    rsvField w = 0 ∧
      ((decodeOpcode (opField w) = some (.inl i) ∧ immField w = 0) ∨
        ∃ mk, decodeOpcode (opField w) = some (.inr mk) ∧ i = mk (immField w)) := by
  unfold decode at h
  split at h
  · exact absurd h (by simp)
  · rename_i shape hop
    split at h
    · exact absurd h (by simp)
    · rename_i hr
      refine ⟨by simpa using hr, ?_⟩
      cases shape with
      | inl j =>
        simp only at h
        split at h
        · exact absurd h (by simp)
        · rename_i him
          have : j = i := by simpa using h
          exact .inl ⟨this ▸ hop, by simpa using him⟩
      | inr mk =>
        have : mk (immField w) = i := by simpa using h
        exact .inr ⟨mk, hop, this.symm⟩

/-- The word four little-endian bytes of a word make is that word (20_memory R63). -/
theorem wordOfBytes_bytes (w : IWord) :
    wordOfBytes (w.extractLsb' 0 8) (w.extractLsb' 8 8) (w.extractLsb' 16 8)
      (w.extractLsb' 24 8) = w := by
  refine BitVec.eq_of_getLsbD_eq fun i hi => ?_
  simp only [wordOfBytes, BitVec.getLsbD_append, BitVec.getLsbD_extractLsb']
  split
  · rename_i h
    simp [h]
  · split
    · rename_i h
      have : 8 + (i - 8) = i := by omega
      simp [h, this]
    · split
      · rename_i h
        have : 16 + (i - 8 - 8) = i := by omega
        simp [h, this]
      · have : 24 + (i - 8 - 8 - 8) = i := by omega
        have h : i - 8 - 8 - 8 < 8 := by omega
        simp [h, this]

end Sys2Proof
end

