-- ==== Sys2Proof/Laws/Ops.lean ====
section
/-! SUPPORT. What each shared operation can answer, said once. -/

namespace Sys2Proof.Machine

@[simp] theorem except_bind_ok {ε α β : Type} (a : α) (k : α → Except ε β) :
    (Except.ok a >>= k) = k a := rfl

@[simp] theorem except_bind_error {ε α β : Type} (e : ε) (k : α → Except ε β) :
    ((Except.error e : Except ε α) >>= k) = .error e := rfl

@[simp] theorem except_pure {ε α : Type} (a : α) : (pure a : Except ε α) = .ok a := rfl

/-! ### Fault entry -/

theorem raise_some (s : State) (c : FaultCause) (ip : Idx) :
    s.raise c (some ip) = faultRecord s c ip := rfl

theorem raise_none (s : State) : s.raise .emptyCallStack none = emptyRecord s := rfl

/-! ### Stack operations -/

@[simp] theorem opop_nil (ip : Idx) : opop ⟨[], ip⟩ = .error .operandUnderflow := rfl

@[simp] theorem opop_cons (v : Value) (S : List Value) (ip : Idx) :
    opop ⟨v :: S, ip⟩ = .ok (v, ⟨S, ip⟩) := rfl

theorem opush_room {c : Config} {f : Frame} (v : Value) (h : f.stack.length ≠ c.opstackCap) :
    opush c f v = .ok ⟨v :: f.stack, f.ip⟩ := by
  simp [opush, h]

theorem opush_full {c : Config} {f : Frame} (v : Value) (h : f.stack.length = c.opstackCap) :
    opush c f v = .error .operandOverflow := by
  simp [opush, h]

theorem need_ok {f : Frame} {k : Nat} (h : k ≤ f.stack.length) : need f k = .ok () := by
  simp [need, Nat.not_lt.2 h]

theorem need_short {f : Frame} {k : Nat} (h : f.stack.length < k) :
    need f k = .error .insufficientOperands := by
  simp [need, h]

/-- The one operand of the opcodes that pop unchecked (40_dispatch R106, R110). -/
theorem popOperand_nil (c : Config) (ip : Idx) :
    popOperand c ⟨[], ip⟩ = .error (underflowCause c) := by
  cases h : c.uniformPrecheck <;> simp [popOperand, precheck, need, underflowCause, h]

theorem popOperand_cons (c : Config) (v : Value) (S : List Value) (ip : Idx) :
    popOperand c ⟨v :: S, ip⟩ = .ok (v, ⟨S, ip⟩) := by
  cases h : c.uniformPrecheck <;> simp [popOperand, precheck, need, h]

theorem cpush_room {c : Config} {cs : List Frame} (f : Frame) (h : cs.length ≠ c.callstackCap) :
    cpush c cs f = .ok (f :: cs) := by
  simp [cpush, h]

theorem cpush_full {c : Config} {cs : List Frame} (f : Frame) (h : cs.length = c.callstackCap) :
    cpush c cs f = .error .callOverflow := by
  simp [cpush, h]

/-! ### One instruction over the current frame -/

theorem withFrame_nil {s : State} {body : Frame → List Frame → Except FaultCause State}
    (h : s.cs = []) : withFrame s body = .next (emptyRecord s) := by
  simp [withFrame, h, raise_none]

theorem withFrame_ok {s t : State} {body : Frame → List Frame → Except FaultCause State}
    {f : Frame} {rest : List Frame} (h : s.cs = f :: rest) (hb : body f rest = .ok t) :
    withFrame s body = .next t := by
  simp [withFrame, h, hb]

theorem withFrame_error {s : State} {body : Frame → List Frame → Except FaultCause State}
    {c : FaultCause} {f : Frame} {rest : List Frame} (h : s.cs = f :: rest)
    (hb : body f rest = .error c) : withFrame s body = .next (faultRecord s c f.ip) := by
  simp [withFrame, h, hb, raise_some]

/-- Everything `withFrame` can do: it always answers a next state. -/
theorem withFrame_next (s : State) (body : Frame → List Frame → Except FaultCause State) :
    ∃ t, withFrame s body = .next t ∧
      ((s.cs = [] ∧ t = emptyRecord s) ∨
        ∃ f rest, s.cs = f :: rest ∧
          ((∃ c, body f rest = .error c ∧ t = faultRecord s c f.ip) ∨ body f rest = .ok t)) := by
  cases h : s.cs with
  | nil => exact ⟨_, withFrame_nil h, .inl ⟨rfl, rfl⟩⟩
  | cons f rest =>
    cases hb : body f rest with
    | error c => exact ⟨_, withFrame_error h hb, .inr ⟨f, rest, rfl, .inl ⟨c, hb, rfl⟩⟩⟩
    | ok t => exact ⟨t, withFrame_ok h hb, .inr ⟨f, rest, rfl, .inr hb⟩⟩

/-! ### The ALU shapes (41_alu R120) -/

theorem aluBinary_short {s : State} {op : Value → Value → Except FaultCause Value} {f : Frame}
    {rest : List Frame} (h : s.cs = f :: rest) (hl : f.stack.length < 2) :
    aluBinary s op = .next (faultRecord s .insufficientOperands f.ip) :=
  withFrame_error h (by simp [need_short hl])

theorem aluBinary_ok {s : State} {op : Value → Value → Except FaultCause Value}
    {rest : List Frame} {a b r : Value} {S : List Value} {ip : Idx}
    (h : s.cs = ⟨a :: b :: S, ip⟩ :: rest) (hr : op a b = .ok r)
    (hc : S.length ≠ s.cfg.opstackCap) :
    aluBinary s op = .next (s.setCs (⟨r :: S, ip + 1⟩ :: rest)) := by
  refine withFrame_ok h ?_
  rw [need_ok (by simp)]
  simp [hr, opush_room (f := ⟨S, ip⟩) r hc, complete, reinsert, Frame.advance]

theorem aluBinary_error {s : State} {op : Value → Value → Except FaultCause Value}
    {rest : List Frame} {a b : Value} {c : FaultCause} {S : List Value} {ip : Idx}
    (h : s.cs = ⟨a :: b :: S, ip⟩ :: rest) (hr : op a b = .error c) :
    aluBinary s op = .next (faultRecord s c ip) := by
  refine withFrame_error (f := ⟨a :: b :: S, ip⟩) h ?_
  rw [need_ok (by simp)]
  simp [hr]

theorem aluUnary_short {s : State} {op : Value → Value} {f : Frame} {rest : List Frame}
    (h : s.cs = f :: rest) (hl : f.stack = []) :
    aluUnary s op = .next (faultRecord s .insufficientOperands f.ip) :=
  withFrame_error h (by rw [need_short (by simp [hl])]; rfl)

theorem aluUnary_ok {s : State} {op : Value → Value} {rest : List Frame} {a : Value}
    {S : List Value} {ip : Idx} (h : s.cs = ⟨a :: S, ip⟩ :: rest)
    (hc : S.length ≠ s.cfg.opstackCap) :
    aluUnary s op = .next (s.setCs (⟨op a :: S, ip + 1⟩ :: rest)) := by
  refine withFrame_ok h ?_
  rw [need_ok (by simp)]
  simp [opush_room (f := ⟨S, ip⟩) (op a) hc, complete, reinsert, Frame.advance]

/-! ### The overflow law (41_alu R121) and the division checks (41_alu R125, R126) -/

theorem res16_inRange {c : Config} {x : Int} (h : -32768 ≤ x ∧ x ≤ 32767) :
    res16 c x = .ok (wrap16 x) := by
  cases hm : c.overflowMode <;> simp [res16, hm, inI16, h]

theorem res16_wrap {c : Config} (x : Int) (h : c.overflowMode = .wrap) :
    res16 c x = .ok (wrap16 x) := by
  simp [res16, h]

theorem res16_fault {c : Config} {x : Int} (h : c.overflowMode = .fault)
    (hx : ¬(-32768 ≤ x ∧ x ≤ 32767)) : res16 c x = .error .arithOverflow := by
  simp [res16, h, inI16, hx]

theorem divCheck_zero (a : Value) : divCheck a 0 = .error .divideByZero := rfl

theorem divCheck_overflow {a b : Value} (ha : a.toInt = -32768) (hb : b.toInt = -1) :
    divCheck a b = .error .divideOverflow := by
  have h0 : b ≠ 0 := by rintro rfl; simp at hb
  simp only [divCheck, if_neg h0, ha, hb, and_self, if_true]

theorem divCheck_ok {a b : Value} (hb : b ≠ 0) (h : ¬(a.toInt = -32768 ∧ b.toInt = -1)) :
    divCheck a b = .ok () := by
  simp only [divCheck, if_neg hb, if_neg h]

end Sys2Proof.Machine
end

