-- ==== Sys2Proof/Laws/Exec.lean ====
section
/-! SUPPORT. What an instruction can do, said once: its own effect, or one fault entry. -/

namespace Sys2Proof.Machine

/-- A binary ALU opcode's own effect: `a` and `b` give way to a result of `op` (41_alu R120). -/
def BinaryEffect (op : Value → Value → Except FaultCause Value) (s : State) (f : Frame)
    (rest : List Frame) (t : State) : Prop :=
  ∃ a b r S, f.stack = a :: b :: S ∧ S.length ≠ s.cfg.opstackCap ∧ op a b = .ok r ∧
    t = s.setCs (⟨r :: S, f.ip + 1⟩ :: rest)

/-- An instruction's own effect on the current frame `f` with `rest` beneath it, from `s` to `t`. -/
def Effect (s : State) (f : Frame) (rest : List Frame) (t : State) : Instr → Prop
  | .add => BinaryEffect (fun a b => res16 s.cfg (a.toInt + b.toInt)) s f rest t
  | .sub => BinaryEffect (fun a b => res16 s.cfg (a.toInt - b.toInt)) s f rest t
  | .mul => BinaryEffect (fun a b => res16 s.cfg (a.toInt * b.toInt)) s f rest t
  | .div => BinaryEffect (fun a b => do divCheck a b; return wrap16 (truncQuot a b)) s f rest t
  | .mod => BinaryEffect
      (fun a b => do divCheck a b; return wrap16 (a.toInt - b.toInt * truncQuot a b)) s f rest t
  | .not => ∃ a S, f.stack = a :: S ∧ S.length ≠ s.cfg.opstackCap ∧
      t = s.setCs (⟨boolValue (!isNonzero a) :: S, f.ip + 1⟩ :: rest)
  | .or => BinaryEffect (fun a b => return boolValue (isNonzero a || isNonzero b)) s f rest t
  | .and => BinaryEffect (fun a b => return boolValue (isNonzero a && isNonzero b)) s f rest t
  | .eq => BinaryEffect (fun a b => return boolValue (decide (a = b))) s f rest t
  | .gt => BinaryEffect (fun a b => return boolValue (decide (a.toInt > b.toInt))) s f rest t
  | .gte => BinaryEffect (fun a b => return boolValue (decide (a.toInt ≥ b.toInt))) s f rest t
  | .jmp addr => t = s.setCs (⟨f.stack, addr⟩ :: rest)
  | .jmpif addr => ∃ a S, f.stack = a :: S ∧
      t = s.setCs (⟨S, if a = 0 then f.ip + 1 else addr⟩ :: rest)
  | .pop => ∃ a S, f.stack = a :: S ∧ t = s.setCs (⟨S, f.ip + 1⟩ :: rest)
  | .push v => f.stack.length ≠ s.cfg.opstackCap ∧
      t = s.setCs (⟨v :: f.stack, f.ip + 1⟩ :: rest)
  | .store addr => ∃ v S, f.stack = v :: S ∧
      t = (s.globalWrite addr v).setCs (⟨S, f.ip + 1⟩ :: rest)
  | .load addr => f.stack.length ≠ s.cfg.opstackCap ∧
      t = s.setCs (⟨globalRead s addr :: f.stack, f.ip + 1⟩ :: rest)
  | .call addr => (f :: rest).length ≠ s.cfg.callstackCap ∧
      t = s.setCs (⟨[], addr⟩ :: ⟨f.stack, f.ip + 1⟩ :: rest)
  | .ret => t = s.setCs rest
  | .retval => ∃ v S C below, f.stack = v :: S ∧ rest = C :: below ∧
      C.stack.length ≠ s.cfg.opstackCap ∧ t = s.setCs (⟨v :: C.stack, C.ip⟩ :: below)
  | .out => ∃ v S, f.stack = v :: S ∧ t = (s.emit .out v).setCs (⟨S, f.ip + 1⟩ :: rest)
  | .halt code => t = ((s.setCs rest).setHalted code).emit .halt code

/-- Everything a binary ALU opcode can do. The last case is no run's: the operand stack would have
to hold two values more than its capacity. -/
theorem aluBinary_cases (s : State) (op : Value → Value → Except FaultCause Value) :
    ∃ t, aluBinary s op = .next t ∧
      ((s.cs = [] ∧ t = emptyRecord s) ∨
        ∃ f rest, s.cs = f :: rest ∧
          ((f.stack.length < 2 ∧ t = faultRecord s .insufficientOperands f.ip) ∨
            (∃ a b S c, f.stack = a :: b :: S ∧ op a b = .error c ∧ t = faultRecord s c f.ip) ∨
            BinaryEffect op s f rest t ∨
            (f.stack.length = s.cfg.opstackCap + 2 ∧
              t = faultRecord s .operandOverflow f.ip))) := by
  cases h : s.cs with
  | nil => exact ⟨_, withFrame_nil h, .inl ⟨rfl, rfl⟩⟩
  | cons f rest =>
    obtain ⟨stack, ip⟩ := f
    match stack with
    | [] => exact ⟨_, aluBinary_short h (by simp), .inr ⟨_, rest, rfl, .inl ⟨by simp, rfl⟩⟩⟩
    | [a] => exact ⟨_, aluBinary_short h (by simp), .inr ⟨_, rest, rfl, .inl ⟨by simp, rfl⟩⟩⟩
    | a :: b :: S =>
      cases hr : op a b with
      | error c =>
        exact ⟨_, aluBinary_error h hr,
          .inr ⟨_, rest, rfl, .inr (.inl ⟨a, b, S, c, rfl, hr, rfl⟩)⟩⟩
      | ok r =>
        by_cases hc : S.length = s.cfg.opstackCap
        · refine ⟨faultRecord s .operandOverflow ip, ?_,
            .inr ⟨_, rest, rfl, .inr (.inr (.inr ⟨by simp [hc], rfl⟩))⟩⟩
          refine withFrame_error (f := ⟨a :: b :: S, ip⟩) h ?_
          rw [need_ok (by simp)]
          simp [hr, opush_full (f := ⟨S, ip⟩) r hc]
        · exact ⟨_, aluBinary_ok h hr hc,
            .inr ⟨_, rest, rfl, .inr (.inr (.inl ⟨a, b, r, S, rfl, hc, hr, rfl⟩))⟩⟩

/-- A cause an instruction raises on the frame `f`: one of its own (60_exceptions R201), or the
overflow of a frame that holds more than its capacity, which no run reaches. -/
def Raises (s : State) (f : Frame) (i : Instr) (c : FaultCause) : Prop :=
  c ∈ ownCauses s.cfg i ∨ c = .operandOverflow ∧ s.cfg.opstackCap < f.stack.length

/-- What an instruction's answer is, from `s` with the current frame `f`: a fault entry with one of
the causes or the instruction's own effect. -/
def Answers (i : Instr) (s : State) (o : Host.Outcome State Fault Refusal) : Prop :=
  ∃ t, o = .next t ∧
    ((s.cs = [] ∧ t = emptyRecord s) ∨
      ∃ f rest, s.cs = f :: rest ∧
        ((∃ c, Raises s f i c ∧ t = faultRecord s c f.ip) ∨ Effect s f rest t i))

/-- A binary ALU opcode answers so, where its operation raises the opcode's causes. -/
theorem aluBinary_answers {i : Instr} {s : State} {op : Value → Value → Except FaultCause Value}
    (hn : .insufficientOperands ∈ ownCauses s.cfg i)
    (hop : ∀ a b c, op a b = .error c → c ∈ ownCauses s.cfg i)
    (hi : ∀ f rest t, BinaryEffect op s f rest t → Effect s f rest t i) :
    Answers i s (aluBinary s op) := by
  obtain ⟨t, ho, h⟩ := aluBinary_cases s op
  refine ⟨t, ho, h.imp id ?_⟩
  rintro ⟨f, rest, hcs, h | ⟨a, b, S, c, -, hc, h⟩ | h | ⟨hl, h⟩⟩
  · exact ⟨f, rest, hcs, .inl ⟨_, .inl hn, h.2⟩⟩
  · exact ⟨f, rest, hcs, .inl ⟨c, .inl (hop a b c hc), h⟩⟩
  · exact ⟨f, rest, hcs, .inr (hi f rest t h)⟩
  · exact ⟨f, rest, hcs, .inl ⟨_, .inr ⟨rfl, by omega⟩, h⟩⟩

/-- An instruction over the current frame answers so. -/
theorem withFrame_answers {i : Instr} {s : State}
    {body : Frame → List Frame → Except FaultCause State}
    (hb : ∀ f rest, s.cs = f :: rest →
      (∃ c, Raises s f i c ∧ body f rest = .error c) ∨
        ∃ t, body f rest = .ok t ∧ Effect s f rest t i) :
    Answers i s (withFrame s body) := by
  obtain ⟨t, ho, h⟩ := withFrame_next s body
  refine ⟨t, ho, h.imp id ?_⟩
  rintro ⟨f, rest, hcs, ht⟩
  refine ⟨f, rest, hcs, ?_⟩
  rcases hb f rest hcs with ⟨c, hc, hbody⟩ | ⟨u, hbody, hu⟩
  · rcases ht with ⟨d, hd, ht⟩ | ht
    · rw [hbody] at hd
      cases hd
      exact .inl ⟨c, hc, ht⟩
    · rw [hbody] at ht
      cases ht
  · rcases ht with ⟨d, hd, -⟩ | ht
    · rw [hbody] at hd
      cases hd
    · rw [hbody] at ht
      cases ht
      exact .inr hu

/-- The one cause of the overflow law (41_alu R121). -/
theorem res16_error {c : Config} {x : Int} {k : FaultCause} (h : res16 c x = .error k) :
    c.overflowMode = .fault ∧ k = .arithOverflow := by
  unfold res16 at h
  split at h
  · cases h
  · split at h
    · cases h
    · cases h
      exact ⟨by assumption, rfl⟩

/-- The two causes of the division checks (41_alu R125, R126). -/
theorem divCheck_error {a b r : Value} {k : FaultCause}
    (h : (do divCheck a b; return r : Except FaultCause Value) = .error k) :
    k = .divideByZero ∨ k = .divideOverflow := by
  unfold divCheck at h
  split at h
  · cases h
    exact .inl rfl
  · split at h
    · cases h
      exact .inr rfl
    · cases h

/-- NONE is no instruction's cause. -/
theorem none_not_mem_ownCauses (c : Config) (i : Instr) : .none ∉ ownCauses c i := by
  have hu : ∀ u, u = underflowCause c → FaultCause.none ≠ u := by
    rintro u rfl
    unfold underflowCause
    split <;> simp
  cases i <;> simp only [ownCauses] <;> first
    | exact List.not_mem_nil
    | decide
    | exact fun h => hu _ rfl (List.mem_singleton.1 h)
    | (split <;> decide)
    | (intro h
       rcases List.mem_cons.1 h with h | h
       · exact hu _ rfl h
       · exact absurd h (by decide))

/-- A raised cause is not NONE. -/
theorem Raises.ne_none {s : State} {f : Frame} {i : Instr} {c : FaultCause}
    (h : Raises s f i c) : c ≠ .none := by
  rintro rfl
  rcases h with h | ⟨h, -⟩
  · exact none_not_mem_ownCauses _ _ h
  · cases h

/-- The opcodes that pop one operand unchecked: the fault of an empty stack, or what follows the
pop. -/
theorem popOperand_answers {i : Instr} {s : State} {k : Value × Frame → List Frame →
    Except FaultCause State}
    (hu : underflowCause s.cfg ∈ ownCauses s.cfg i)
    (hk : ∀ v S ip rest, s.cs = ⟨v :: S, ip⟩ :: rest →
      (∃ c, c ∈ ownCauses s.cfg i ∧ k (v, ⟨S, ip⟩) rest = .error c) ∨
        ∃ t, k (v, ⟨S, ip⟩) rest = .ok t ∧ Effect s ⟨v :: S, ip⟩ rest t i) :
    Answers i s (withFrame s fun f rest => do let r ← popOperand s.cfg f; k r rest) := by
  refine withFrame_answers fun f rest hcs => ?_
  obtain ⟨stack, ip⟩ := f
  cases stack with
  | nil => exact .inl ⟨_, .inl hu, by rw [popOperand_nil]; rfl⟩
  | cons v S =>
    rw [popOperand_cons]
    exact (hk v S ip rest hcs).imp_left fun ⟨c, hc, hb⟩ => ⟨c, .inl hc, hb⟩

/-- The opcodes that push onto the current frame: the fault of a full stack, or the push. -/
theorem opush_answers {i : Instr} {s : State} {v : Value}
    (ho : .operandOverflow ∈ ownCauses s.cfg i)
    (hi : ∀ f rest, f.stack.length ≠ s.cfg.opstackCap →
      Effect s f rest (s.setCs (⟨v :: f.stack, f.ip + 1⟩ :: rest)) i) :
    Answers i s (withFrame s fun f rest => do
      let f ← opush s.cfg f v
      return complete s f rest) := by
  refine withFrame_answers fun f rest _ => ?_
  by_cases h : f.stack.length = s.cfg.opstackCap
  · exact .inl ⟨.operandOverflow, .inl ho, by rw [opush_full v h]; rfl⟩
  · exact .inr ⟨_, by rw [opush_room v h]; rfl, hi f rest h⟩

/-- Everything an instruction can do: the one case split the statements about all instructions go
through. -/
theorem exec_answers (i : Instr) (s : State) : Answers i s (exec i s) := by
  cases i with
  | add =>
    simp only [exec, execAdd]
    exact aluBinary_answers List.mem_cons_self
      (fun a b c h => by
        obtain ⟨hm, rfl⟩ := res16_error h
        simp [ownCauses, hm]) fun _ _ _ h => h
  | sub =>
    simp only [exec, execSub]
    exact aluBinary_answers List.mem_cons_self
      (fun a b c h => by
        obtain ⟨hm, rfl⟩ := res16_error h
        simp [ownCauses, hm]) fun _ _ _ h => h
  | mul =>
    simp only [exec, execMul]
    exact aluBinary_answers List.mem_cons_self
      (fun a b c h => by
        obtain ⟨hm, rfl⟩ := res16_error h
        simp [ownCauses, hm]) fun _ _ _ h => h
  | div =>
    simp only [exec, execDiv]
    exact aluBinary_answers List.mem_cons_self
      (fun a b c h => by rcases divCheck_error h with rfl | rfl <;> simp [ownCauses])
      fun _ _ _ h => h
  | mod =>
    simp only [exec, execMod]
    exact aluBinary_answers List.mem_cons_self
      (fun a b c h => by rcases divCheck_error h with rfl | rfl <;> simp [ownCauses])
      fun _ _ _ h => h
  | or =>
    simp only [exec, execOr]
    exact aluBinary_answers List.mem_cons_self (fun _ _ _ h => nomatch h) fun _ _ _ h => h
  | and =>
    simp only [exec, execAnd]
    exact aluBinary_answers List.mem_cons_self (fun _ _ _ h => nomatch h) fun _ _ _ h => h
  | eq =>
    simp only [exec, execEq]
    exact aluBinary_answers List.mem_cons_self (fun _ _ _ h => nomatch h) fun _ _ _ h => h
  | gt =>
    simp only [exec, execGt]
    exact aluBinary_answers List.mem_cons_self (fun _ _ _ h => nomatch h) fun _ _ _ h => h
  | gte =>
    simp only [exec, execGte]
    exact aluBinary_answers List.mem_cons_self (fun _ _ _ h => nomatch h) fun _ _ _ h => h
  | not =>
    refine withFrame_answers fun f rest _ => ?_
    obtain ⟨stack, ip⟩ := f
    cases stack with
    | nil => exact .inl ⟨.insufficientOperands, .inl List.mem_cons_self, rfl⟩
    | cons a S =>
      rw [need_ok (by simp)]
      by_cases h : S.length = s.cfg.opstackCap
      · exact .inl ⟨.operandOverflow, .inr ⟨rfl, by simp [h]⟩,
          by simp [opush_full (f := ⟨S, ip⟩) _ h]⟩
      · exact .inr ⟨_, by simp [opush_room (f := ⟨S, ip⟩) _ h]; rfl, a, S, rfl, h, rfl⟩
  | jmp addr =>
    simp only [exec, execJmp]
    exact withFrame_answers fun f rest _ => .inr ⟨_, rfl, rfl⟩
  | jmpif addr =>
    refine popOperand_answers List.mem_cons_self fun v S ip rest _ => .inr ?_
    by_cases hv : v = 0
    · exact ⟨_, by simp [isNonzero, hv]; rfl, v, S, rfl, by simp [hv]; rfl⟩
    · refine ⟨reinsert s ⟨S, addr⟩ rest, ?_, v, S, rfl, by rw [if_neg hv]; rfl⟩
      simp only [isNonzero, ne_eq, hv, not_false_eq_true, decide_true, if_true]
      rfl
  | pop => exact popOperand_answers List.mem_cons_self fun v S ip rest _ => .inr ⟨_, rfl, v, S, rfl, rfl⟩
  | push v => exact opush_answers List.mem_cons_self fun f rest h => ⟨h, rfl⟩
  | store addr => exact popOperand_answers List.mem_cons_self fun v S ip rest _ => .inr ⟨_, rfl, v, S, rfl, rfl⟩
  | load addr => exact opush_answers List.mem_cons_self fun f rest h => ⟨h, rfl⟩
  | call addr =>
    refine withFrame_answers fun f rest _ => ?_
    by_cases h : (f.advance :: rest).length = s.cfg.callstackCap
    · exact .inl ⟨.callOverflow, .inl List.mem_cons_self, by rw [cpush_full _ h]; rfl⟩
    · exact .inr ⟨_, by rw [cpush_room _ h]; rfl, h, rfl⟩
  | ret =>
    simp only [exec, execRet]
    exact withFrame_answers fun f rest _ => .inr ⟨_, rfl, rfl⟩
  | retval =>
    refine popOperand_answers List.mem_cons_self fun v S ip rest _ => ?_
    cases rest with
    | nil => exact .inl ⟨.emptyCallStack, by simp [ownCauses], rfl⟩
    | cons C below =>
      by_cases h : C.stack.length = s.cfg.opstackCap
      · exact .inl ⟨.operandOverflow, by simp [ownCauses], by simp [cpop, opush_full v h]⟩
      · exact .inr ⟨_, by simp [cpop, opush_room v h]; rfl, v, S, C, below, rfl, rfl, h, rfl⟩
  | out => exact popOperand_answers List.mem_cons_self fun v S ip rest _ => .inr ⟨_, rfl, v, S, rfl, rfl⟩
  | halt code =>
    simp only [exec, execHalt]
    exact withFrame_answers fun f rest _ => .inr ⟨_, rfl, rfl⟩

end Sys2Proof.Machine
end

