-- ==== Sys2Proof/Laws/Host.lean ====
section
/-! SUPPORT. What one step of the engine and one act of the host can do, said once. -/

namespace Sys2Proof.Machine

/-! ### The engine -/

theorem step_running {s : State} (h : s.estate = .running) : step s = engineStep s := by
  simp [step, h]

theorem hostStep_paused {s : State} (h : s.estate = .paused) : hostStep s = engineStep s := by
  simp [hostStep, h]

/-- Only a running engine's step answers a next state (40_dispatch R100). -/
theorem step_next {s t : State} (h : step s = .next t) :
    s.estate = .running ∧ engineStep s = .next t := by
  cases he : s.estate <;> simp only [step, he] at h <;> first
    | exact ⟨rfl, h⟩
    | cases h

/-- A step that reaches a word decodes it (40_dispatch R103). -/
theorem engineStep_fetched {s : State} {f : Frame} {rest : List Frame} {w : IWord}
    (h : s.cs = f :: rest) (hl : f.ip < s.progLen) (hw : imemWord s f.ip = some w) :
    engineStep s =
      match decode w with
      | .error _ => .next (faultRecord s .illegalInstruction f.ip)
      | .ok i => exec i s := by
  have : ¬s.progLen ≤ f.ip := BitVec.not_le.2 hl
  simp only [engineStep, h, if_neg this, fetchWord, if_pos hl, hw]
  rfl

theorem engineStep_empty {s : State} (h : s.cs = []) : engineStep s = .next (emptyRecord s) := by
  simp [engineStep, h, raise_none]

theorem engineStep_invalidIp {s : State} {f : Frame} {rest : List Frame} (h : s.cs = f :: rest)
    (hl : s.progLen ≤ f.ip) : engineStep s = .next (faultRecord s .invalidIp f.ip) := by
  simp [engineStep, h, hl, raise_some]

/-- Everything a step that answers a next state did: a fault entry, or the effect of the decoded
instruction (40_dispatch R101 to R105). -/
theorem engineStep_next {s t : State} (h : engineStep s = .next t) :
    (s.cs = [] ∧ t = emptyRecord s) ∨
      ∃ f rest, s.cs = f :: rest ∧
        ((∃ c, c ≠ .none ∧ t = faultRecord s c f.ip) ∨
          ∃ w i, f.ip < s.progLen ∧ imemWord s f.ip = some w ∧ decode w = .ok i ∧
            exec i s = .next t ∧ Effect s f rest t i) := by
  cases hc : s.cs with
  | nil =>
    rw [engineStep_empty hc] at h
    cases h
    exact .inl ⟨rfl, rfl⟩
  | cons f rest =>
    refine .inr ⟨f, rest, rfl, ?_⟩
    by_cases hl : s.progLen ≤ f.ip
    · rw [engineStep_invalidIp hc hl] at h
      cases h
      exact .inl ⟨.invalidIp, by decide, rfl⟩
    · replace hl := BitVec.not_le.1 hl
      cases hw : imemWord s f.ip with
      | none =>
        have : ¬s.progLen ≤ f.ip := BitVec.not_le.2 hl
        simp only [engineStep, hc, if_neg this, fetchWord, if_pos hl, hw] at h
        cases h
      | some w =>
        rw [engineStep_fetched hc hl hw] at h
        cases hd : decode w with
        | error e =>
          rw [hd] at h
          cases h
          exact .inl ⟨.illegalInstruction, by decide, rfl⟩
        | ok i =>
          rw [hd] at h
          replace h : exec i s = .next t := h
          obtain ⟨u, hu, hA⟩ := exec_answers i s
          rw [h] at hu
          cases hu
          rcases hA with ⟨h0, -⟩ | ⟨g, r, hg, hA⟩
          · rw [h0] at hc
            cases hc
          · rw [hc] at hg
            cases hg
            rcases hA with ⟨c, hr, ht⟩ | hE
            · exact .inl ⟨c, hr.ne_none, ht⟩
            · exact .inr ⟨w, i, hl, rfl, hd, h, hE⟩

/-! ### The host -/

/-- A write of CTRL is a command or nothing (70 R237). -/
theorem writeCtrl_cases (s : State) (w : BitVec 32) :
    (w.extractLsb' 0 3 = 1#3 ∧ writeCtrl s w = hostStart s) ∨
      (w.extractLsb' 0 3 = 2#3 ∧ writeCtrl s w = hostRun s) ∨
      (w.extractLsb' 0 3 = 4#3 ∧ writeCtrl s w = hostStep s) ∨
      (w.extractLsb' 0 3 ∉ ([1, 2, 4] : List (BitVec 3)) ∧ writeCtrl s w = .next s) := by
  unfold writeCtrl
  generalize w.extractLsb' 0 3 = c
  have : c = 0#3 ∨ c = 1#3 ∨ c = 2#3 ∨ c = 3#3 ∨ c = 4#3 ∨ c = 5#3 ∨ c = 6#3 ∨ c = 7#3 := by
    revert c
    decide
  rcases this with rfl | rfl | rfl | rfl | rfl | rfl | rfl | rfl <;> simp

/-- A write of a host register is one of CTRL, ENTRY, PROG_LEN or nothing (70 R237, R239). -/
theorem writeHostReg_cases (s : State) (n : BitVec 8) (w : BitVec 32) :
    (n = 0#8 ∧ writeHostReg s n w = writeCtrl s w) ∨
      (n = 4#8 ∧ writeHostReg s n w = .next (s.hostWriteEntry (w.extractLsb' 0 16))) ∨
      (n = 5#8 ∧ writeHostReg s n w = .next (s.hostWriteProgLen (w.extractLsb' 0 16))) ∨
      (n ≠ 0#8 ∧ n ≠ 4#8 ∧ n ≠ 5#8 ∧ writeHostReg s n w = .next s) := by
  by_cases h0 : n = 0#8
  · subst h0
    exact .inl ⟨rfl, rfl⟩
  by_cases h4 : n = 4#8
  · subst h4
    exact .inr (.inl ⟨rfl, rfl⟩)
  by_cases h5 : n = 5#8
  · subst h5
    exact .inr (.inr (.inl ⟨rfl, rfl⟩))
  refine .inr (.inr (.inr ⟨h0, h4, h5, ?_⟩))
  unfold writeHostReg
  split
  · rename_i h
    exact absurd (BitVec.eq_of_toNat_eq h) h0
  · rename_i h
    exact absurd (BitVec.eq_of_toNat_eq h) h4
  · rename_i h
    exact absurd (BitVec.eq_of_toNat_eq h) h5
  · rfl

/-- `t` is `s` but for the model's draw counter. -/
def OnlyDraws (s t : State) : Prop := t = { s with draws := t.draws }

theorem onlyDraws_drawWord (s : State) : OnlyDraws s (drawWord s).2 := rfl

theorem readHostReg_onlyDraws (s : State) (n : BitVec 8) : OnlyDraws s (readHostReg s n).2 := by
  have hr : ∀ w, OnlyDraws s (readOutsideRun s w).2 := by
    intro w
    unfold readOutsideRun
    split <;> rfl
  unfold readHostReg
  split <;> first
    | exact hr _
    | rfl

theorem readFramePort_onlyDraws {s t : State} {k : Nat} {free : BitVec 32 → HostReply}
    {view : Frame → Option HostReply} {r : HostReply}
    (h : readFramePort s k free view = .ok (r, t)) : OnlyDraws s t := by
  unfold readFramePort at h
  split at h
  · cases h
    rfl
  · split at h <;> cases h
    rfl

theorem readImemPort_onlyDraws {s t : State} {i : Idx} {w : BitVec 32}
    (h : readImemPort s i = .ok (w, t)) : OnlyDraws s t := by
  unfold readImemPort at h
  split at h
  · cases h
    rfl
  · split at h
    · cases h
    · split at h <;> cases h <;> rfl

theorem readGlobalPort_onlyDraws (s : State) (a : Idx) : OnlyDraws s (readGlobalPort s a).2 := by
  unfold readGlobalPort
  split <;> rfl

theorem ofRead_next {x : Except Fault (HostReply × State)} {r : HostReply} {t : State}
    (h : ofRead x = .next (r, t)) : x = .ok (r, t) := by
  cases x <;> cases h
  rfl

theorem withDone_next {o : Host.Outcome State Fault Refusal} {r : HostReply} {t : State}
    (h : withDone o = .next (r, t)) : o = .next t := by
  cases o <;> cases h
  rfl

/-- What a host act that answers did, from `s` to `t` (70 R230 to R239). -/
inductive HostEffect : HostAction → State → State → Prop where
  | reset (s : State) : HostEffect .reset s s.hostReset
  | nothing (a : HostAction) (s t : State) (h : a ≠ .reset) (ht : OnlyDraws s t) : HostEffect a s t
  | imem (i : Idx) (w : IWord) (s : State) (h : s.estate = .idle) (hi : i ≠ 0xFFFF#16) :
      HostEffect (.writeImem i w) s (s.imemWrite i w)
  | entry (w : BitVec 32) (s : State) (h : s.estate = .idle) :
      HostEffect (.writeReg 4#8 w) s { s with entry := w.extractLsb' 0 16 }
  | progLen (w : BitVec 32) (s : State) (h : s.estate = .idle) :
      HostEffect (.writeReg 5#8 w) s { s with progLen := w.extractLsb' 0 16 }
  | start (w : BitVec 32) (s : State) (hw : w.extractLsb' 0 3 = 1#3) (h : s.estate = .idle)
      (hu : firstUnwritten s = none) :
      HostEffect (.writeReg 0#8 w) s ((s.setCs [⟨[], s.entry⟩]).setEstate .paused)
  | run (w : BitVec 32) (s : State) (hw : w.extractLsb' 0 3 = 2#3) (h : s.estate = .paused) :
      HostEffect (.writeReg 0#8 w) s (s.setEstate .running)
  | step (w : BitVec 32) (s t : State) (hw : w.extractLsb' 0 3 = 4#3) (h : s.estate = .paused)
      (ht : engineStep s = .next t) : HostEffect (.writeReg 0#8 w) s t

/-- A read of the host changes nothing but the draw counter (70 R238). -/
theorem hostRead_onlyDraws {a : HostAction} {s t : State} {r : HostReply} (h3 : a ≠ .reset)
    (h1 : ∀ n w, a ≠ .writeReg n w) (h2 : ∀ i w, a ≠ .writeImem i w)
    (h : hostAct a s = .next (r, t)) : OnlyDraws s t := by
  cases a with
  | reset => exact absurd rfl h3
  | writeReg n w => exact absurd rfl (h1 n w)
  | writeImem i w => exact absurd rfl (h2 i w)
  | readReg n =>
    cases h
    exact readHostReg_onlyDraws s n
  | readImem i =>
    have h := ofRead_next h
    cases hp : readImemPort s i <;> rw [hp] at h <;> cases h
    exact readImemPort_onlyDraws hp
  | readGlobal i =>
    cases h
    exact readGlobalPort_onlyDraws s i
  | readFrameIp k => exact readFramePort_onlyDraws (ofRead_next h)
  | readFrameLength k => exact readFramePort_onlyDraws (ofRead_next h)
  | readFrameEntry k j => exact readFramePort_onlyDraws (ofRead_next h)

/-- Everything a host act that answers can do. -/
theorem hostAct_effect {a : HostAction} {s t : State} {r : HostReply}
    (h : hostAct a s = .next (r, t)) : HostEffect a s t := by
  by_cases h3 : a = .reset
  · subst h3
    cases h
    exact .reset s
  by_cases h1 : ∃ n w, a = .writeReg n w
  · obtain ⟨n, w, rfl⟩ := h1
    have hs : HostEffect (.writeReg n w) s s := .nothing _ s s h3 rfl
    replace h := withDone_next h
    rcases writeHostReg_cases s n w with ⟨rfl, e⟩ | ⟨rfl, e⟩ | ⟨rfl, e⟩ | ⟨-, -, -, e⟩ <;>
      rw [e] at h
    · rcases writeCtrl_cases s w with ⟨hw, e⟩ | ⟨hw, e⟩ | ⟨hw, e⟩ | ⟨hw, e⟩ <;> rw [e] at h
      · unfold hostStart at h
        split at h
        · split at h
          · cases h
          · cases h
            exact .start w s hw (by assumption) (by assumption)
        · cases h
          exact hs
      · unfold hostRun at h
        split at h
        · cases h
          exact .run w s hw (by assumption)
        · cases h
          exact hs
      · unfold hostStep at h
        split at h
        · exact .step w s t hw (by assumption) h
        · cases h
          exact hs
      · cases h
        exact hs
    · cases h
      unfold State.hostWriteEntry
      split
      · exact .entry w s (by assumption)
      · exact hs
    · cases h
      unfold State.hostWriteProgLen
      split
      · exact .progLen w s (by assumption)
      · exact hs
    · cases h
      exact hs
  by_cases h2 : ∃ i w, a = .writeImem i w
  · obtain ⟨i, w, rfl⟩ := h2
    cases h
    unfold State.hostWriteImem
    split
    · rename_i h
      exact .imem i w s h.1 h.2
    · exact .nothing _ s s h3 rfl
  · exact .nothing a s t h3
      (hostRead_onlyDraws h3 (by simpa using h1) (by simpa using h2) h)

/-- An event of the host is one of its acts. -/
theorem event_host {a : HostAction} {s t : State} (h : event (.host a) s = .next t) :
    ∃ r, hostAct a s = .next (r, t) := by
  simp only [event] at h
  split at h <;> cases h
  exact ⟨_, by assumption⟩

/-- The first event of a list that answers a next state passes it on. -/
theorem events_cons {e : Event} {s t : State} (h : event e s = .next t) (es : List Event) :
    events (e :: es) s = events es t := by
  simp [events, h]

theorem event_writeImem (i : Idx) (w : IWord) (s : State) :
    event (.host (.writeImem i w)) s = .next (s.hostWriteImem i w) := rfl

theorem event_writeCtrl (w : BitVec 32) (s : State) :
    event (.host (.writeReg 0x00 w)) s = writeCtrl s w := by
  simp only [event, hostAct, writeHostReg, withDone]
  cases writeCtrl s w <;> rfl

/-- A list of events that answers has answered up to its last event. -/
theorem events_snoc {es : List Event} {e : Event} {s t : State}
    (h : events (es ++ [e]) s = .next t) :
    ∃ u, events es s = .next u ∧ event e u = .next t := by
  induction es generalizing s with
  | nil =>
    refine ⟨s, rfl, ?_⟩
    simp only [List.nil_append, events] at h
    split at h
    · rw [← h]
      assumption
    · cases h
    · cases h
  | cons d es ih =>
    simp only [List.cons_append, events] at h ⊢
    split at h
    · exact ih h
    · cases h
    · cases h

/-- The event of a step is one step of the engine. -/
theorem event_takesStep {e : Event} {s : State} (h : TakesStep e s) : event e s = engineStep s := by
  rcases h with ⟨rfl, h⟩ | ⟨w, rfl, hw, h⟩
  · exact step_running h
  · rw [event_writeCtrl, ← hostStep_paused h]
    simp [writeCtrl, hw]

/-- The launch check passes exactly when every word of the program is written (70 R240). -/
theorem firstUnwritten_eq_none (s : State) :
    firstUnwritten s = none ↔ ∀ i : Idx, i < s.progLen → ∃ w, imemWord s i = some w := by
  simp only [firstUnwritten, List.find?_eq_none, List.mem_range, imemWord,
    Option.isNone_iff_eq_none, ← Option.isSome_iff_exists, Option.isSome_iff_ne_none]
  constructor
  · exact fun h i hi => h i.toNat hi
  · intro h i hi
    have hlt : i < 2 ^ 16 := Nat.lt_trans hi s.progLen.isLt
    have hi' : (BitVec.ofNat 16 i).toNat = i := by simpa using Nat.mod_eq_of_lt hlt
    have := h (BitVec.ofNat 16 i) (by rw [BitVec.lt_def, hi']; exact hi)
    rwa [hi'] at this

end Sys2Proof.Machine
end

