-- ==== Sys2Proof/Laws/PerInstr.lean ====
section
/-! SUPPORT. The per-instruction family Encoding: the fields of an instruction's word. -/

namespace Sys2Proof.Laws.Encoding

/-- The word of `i` has `i`'s opcode in bits 31:24, 0 in bits 23:16 and `i`'s immediate in bits 15:0,
and an instruction of class none has the immediate 0 (30_encoding R80, R81, R87). -/
def Statement (i : Instr) : Prop :=
  opField (encode i) = opcodeOf i ∧ rsvField (encode i) = 0 ∧ immField (encode i) = immOf i ∧
    (classOf i = .none → immField (encode i) = 0)

/-- The first three parts hold of every instruction. -/
theorem fields_encode (i : Instr) :
    opField (encode i) = opcodeOf i ∧ rsvField (encode i) = 0 ∧ immField (encode i) = immOf i :=
  ⟨opField_append _ _ _, rsvField_append _ _ _, immField_append _ _ _⟩

/-- An instruction whose immediate pattern is 0 where its class is none. -/
theorem statement_of {i : Instr} (h : classOf i = .none → immOf i = 0) : Statement i :=
  ⟨(fields_encode i).1, (fields_encode i).2.1, (fields_encode i).2.2,
    fun hc => (fields_encode i).2.2.trans (h hc)⟩

theorem add : Statement .add := statement_of fun _ => rfl

theorem sub : Statement .sub := statement_of fun _ => rfl

theorem mul : Statement .mul := statement_of fun _ => rfl

theorem div : Statement .div := statement_of fun _ => rfl

theorem mod : Statement .mod := statement_of fun _ => rfl

theorem not : Statement .not := statement_of fun _ => rfl

theorem or : Statement .or := statement_of fun _ => rfl

theorem and : Statement .and := statement_of fun _ => rfl

theorem eq : Statement .eq := statement_of fun _ => rfl

theorem gt : Statement .gt := statement_of fun _ => rfl

theorem gte : Statement .gte := statement_of fun _ => rfl

theorem jmp (addr : Idx) : Statement (.jmp addr) := statement_of nofun

theorem jmpif (addr : Idx) : Statement (.jmpif addr) := statement_of nofun

theorem pop : Statement .pop := statement_of fun _ => rfl

theorem push (v : Value) : Statement (.push v) := statement_of nofun

theorem store (addr : Idx) : Statement (.store addr) := statement_of nofun

theorem load (addr : Idx) : Statement (.load addr) := statement_of nofun

theorem call (addr : Idx) : Statement (.call addr) := statement_of nofun

theorem ret : Statement .ret := statement_of fun _ => rfl

theorem retval : Statement .retval := statement_of fun _ => rfl

theorem out : Statement .out := statement_of fun _ => rfl

theorem halt (code : Value) : Statement (.halt code) := statement_of nofun

end Sys2Proof.Laws.Encoding
end

