-- ==== Sys2Proof/Tests/Slice0.lean ====
section
/-! SUPPORT. Tests of the model. Expected results are 95_test_vectors' or worked out by hand from
the rules. The second half shows, for each statement with hypotheses, states and operands that meet
them. Stacks are written top first, so the vector `[b, a]` of 95 is `[a, b]` here. -/

namespace Sys2Proof.Tests

open Sys2Proof.Machine

/-! ### Helpers -/

/-- The reference configuration. -/
abbrev ref : Config := Config.reference

/-- OVERFLOW_MODE = fault. -/
abbrev strict : Config := { ref with overflowMode := .fault }

/-- UNIFORM_PRECHECK = true. -/
abbrev uniform : Config := { ref with uniformPrecheck := true }

/-- Given capacities. -/
abbrev caps (opstack callstack : Nat) : Config :=
  { ref with opstackCap := opstack, callstackCap := callstack }

/-- An engine in RUNNING with PROG_LEN 9 and a call stack, current frame first. -/
abbrev machine (c : Config) (cs : List Frame) : State :=
  { State.resetWith c 0 with progLen := 9, estate := .running, cs := cs }

/-- One frame at ip 4, as in 95 2.1. -/
abbrev one (c : Config) (S : List Value) : State := machine c [⟨S, 4⟩]

/-- The state of an outcome. -/
def after (o : Host.Outcome State Fault Refusal) : Option State :=
  match o with
  | .next t => some t
  | _ => none

/-- The call stack an instruction leaves, where it does not fault. -/
def csAfter (i : Instr) (s : State) : Option (List Frame) :=
  (after (exec i s)).bind fun t => if t.estate = .faulted then none else some t.cs

/-- The FAULT register after an instruction that faults. -/
def faultAfter (i : Instr) (s : State) : Option (BitVec 32) :=
  (after (exec i s)).bind fun t => if t.estate = .faulted then some (faultReg t) else none

/-- The reply of a host act. -/
def replyOf (a : HostAction) (s : State) : Option HostReply :=
  match hostAct a s with
  | .next (r, _) => some r
  | _ => none

/-- An event on a state, where it answers. -/
def eventOn (e : Event) (s : State) : Option State := after (event e s)

/-! ### Decoding (95 2.0; the words are 30_encoding R84's rows, opcode then 0x00 then immediate) -/

theorem test_decode_alu :
    decode 0b00000001000000000000000000000000 = .ok .add ∧
      decode 0b00000010000000000000000000000000 = .ok .sub ∧
      decode 0b00000011000000000000000000000000 = .ok .mul ∧
      decode 0b00000100000000000000000000000000 = .ok .div ∧
      decode 0b00000101000000000000000000000000 = .ok .mod := ⟨rfl, rfl, rfl, rfl, rfl⟩

theorem test_decode_logic :
    decode 0b00000110000000000000000000000000 = .ok .not ∧
      decode 0b00000111000000000000000000000000 = .ok .or ∧
      decode 0b00001000000000000000000000000000 = .ok .and ∧
      decode 0b00001001000000000000000000000000 = .ok .eq ∧
      decode 0b00001010000000000000000000000000 = .ok .gt ∧
      decode 0b00001011000000000000000000000000 = .ok .gte := ⟨rfl, rfl, rfl, rfl, rfl, rfl⟩

theorem test_decode_jump :
    decode 0b00001100000000001111111111111111 = .ok (.jmp 65535) ∧
      decode 0b00001101000000000000000000000110 = .ok (.jmpif 6) := ⟨rfl, rfl⟩

theorem test_decode_stack_globals :
    decode 0b00001110000000000000000000000000 = .ok .pop ∧
      decode 0b00001111000000001000000000000000 = .ok (.push (-32768)) ∧
      decode 0b00010000000000000000000000000011 = .ok (.store 3) ∧
      decode 0b00010001000000001111111111111111 = .ok (.load 65535) := ⟨rfl, rfl, rfl, rfl⟩

theorem test_decode_call :
    decode 0b00010010000000000000000100101100 = .ok (.call 300) ∧
      decode 0b00010011000000000000000000000000 = .ok .ret ∧
      decode 0b00010100000000000000000000000000 = .ok .retval := ⟨rfl, rfl, rfl⟩

theorem test_decode_output :
    decode 0b00010101000000000000000000000000 = .ok .out ∧
      decode 0b00010110000000001111111111111111 = .ok (.halt (-1)) := ⟨rfl, rfl⟩

/-- Each check of R85 refuses, by name. -/
theorem test_decode_illegal :
    decode 0x00000000 = .error (.reservedOpcode 0x00) ∧
      decode 0x17000000 = .error (.reservedOpcode 0x17) ∧
      decode 0xFFFFFFFF = .error (.reservedOpcode 0xFF) ∧
      decode 0x0F010005 = .error (.reservedBits 0x01) ∧
      decode 0x16FF0000 = .error (.reservedBits 0xFF) ∧
      decode 0x01000001 = .error (.strayImmediate 1) := ⟨rfl, rfl, rfl, rfl, rfl, rfl⟩

theorem test_encode : encode (.push (-2)) = 0x0F00FFFE ∧ encode (.call 300) = 0x1200012C := by
  decide

/-- R63, on bytes that all differ. -/
theorem test_bytes :
    bytesOfWord 0x12345678 = [0x78, 0x56, 0x34, 0x12] ∧ bytesOfValue 0xFFFE = [0xFE, 0xFF] := by
  decide

/-- R63: the bytes of 0F000009 are 09 00 00 0F, and three bytes are no word. -/
theorem test_decode_bytes :
    decodeBytes [0x09, 0x00, 0x00, 0x0F, 0x15] = .ok (.push 9, [0x15]) ∧
      decodeBytes [0x09, 0x00, 0x00] = .error .truncated := ⟨rfl, rfl⟩

theorem test_decode_table_word :
    decodeTableWord 32 0x1000FFFF = some (.store 65535) ∧ decodeTableWord 32 0 = none := by
  decide

/-- The first instruction after reset, through the host's probe. -/
theorem test_probe_runs :
    (after (step (State.reset.withFetchWord 32 0x0F000005))).map (·.cs) = some [⟨[5], 1⟩] ∧
      (after (step (State.reset.withFetchWord 32 0x16000000))).map (·.estate) =
        some .halted := by decide

/-! ### WellFormed: an ill-formed listing for each check of R88 -/

theorem test_wf_missing_operand :
    (SourceInstr.mk .push none).error? = some .missingOperand ∧
      (SourceInstr.mk .jmp none).error? = some .missingOperand := by decide

theorem test_wf_stray_operand :
    (SourceInstr.mk .add (some (.decimal false 0))).error? = some .strayOperand := by decide

theorem test_wf_out_of_range :
    (SourceInstr.mk .push (some (.decimal false 32768))).error? = some .outOfRange ∧
      (SourceInstr.mk .push (some (.decimal true 32769))).error? = some .outOfRange ∧
      (SourceInstr.mk .push (some (.hex 0x10000))).error? = some .outOfRange ∧
      (SourceInstr.mk .push (some (.label ['f']))).error? = some .outOfRange ∧
      (SourceInstr.mk .jmp (some (.decimal false 65536))).error? = some .outOfRange ∧
      (SourceInstr.mk .jmp (some (.decimal true 1))).error? = some .outOfRange := by decide

theorem test_wf_accepts :
    (SourceInstr.mk .push (some (.decimal true 32768))).wellFormed = true ∧
      (SourceInstr.mk .store (some (.decimal false 65535))).wellFormed = true ∧
      (SourceInstr.mk .ret none).wellFormed = true := by decide

theorem test_wf_config : (caps 2 0).wellFormed = false ∧ ref.wellFormed = true := by decide

/-! ### The assembler (R88) -/

/-- Labels stand for absolute indices, comments and parentheses are read, hex is a pattern. -/
theorem test_assemble :
    (assemble 0 "go: PUSH(-1) ; x\nJMPIF go\nHALT 0x12C".toList).toOption =
      some [0x0F00FFFF, 0x0D000000, 0x1600012C] := by decide

/-- The two choices of log entry 15: a base other than 0 shifts the labels, and a plus sign is no
operand. -/
theorem test_assemble_choices :
    (assemble 300 "f: CALL f".toList).toOption = some [0x1200012C] ∧
      (assemble 0 "PUSH +1".toList).toOption = none := by decide

theorem test_assemble_errors :
    assemble 0 "RET 1".toList = .error (.badOperand 0 .strayOperand) ∧
      assemble 0 "RET\nJMP nowhere".toList =
        .error (.unknownLabel 1 ['n', 'o', 'w', 'h', 'e', 'r', 'e']) := ⟨rfl, rfl⟩

/-! ### One step per instruction (95 2.1 to 2.6) -/

theorem test_add :
    csAfter .add (one ref [2, 3, 9]) = some [⟨[5, 9], 5⟩] ∧
      csAfter .add (one ref [32767, 1]) = some [⟨[-32768], 5⟩] := by decide

theorem test_add_faults :
    faultAfter .add (one strict [32767, 1]) = some 0x0004010A ∧
      faultAfter .add (one ref [5]) = some 0x00040101 := by decide

theorem test_sub :
    csAfter .sub (one ref [3, 5]) = some [⟨[-2], 5⟩] ∧
      csAfter .sub (one ref [-32768, 1]) = some [⟨[32767], 5⟩] := by decide

theorem test_sub_faults : faultAfter .sub (one strict [0, -32768]) = some 0x0004010A := by decide

theorem test_mul :
    csAfter .mul (one ref [200, 200]) = some [⟨[-25536], 5⟩] ∧
      csAfter .mul (one strict [32767, -1]) = some [⟨[-32767], 5⟩] := by decide

theorem test_mul_faults : faultAfter .mul (one strict [-32768, -1]) = some 0x0004010A := by decide

theorem test_div :
    csAfter .div (one ref [-7, 2]) = some [⟨[-3], 5⟩] ∧
      csAfter .div (one ref [7, -2]) = some [⟨[-3], 5⟩] ∧
      csAfter .div (one ref [-32768, 1]) = some [⟨[-32768], 5⟩] := by decide

theorem test_div_faults :
    faultAfter .div (one ref [0]) = some 0x00040101 ∧
      faultAfter .div (one ref [0, 0]) = some 0x00040108 ∧
      faultAfter .div (one ref [-32768, -1]) = some 0x00040109 := by decide

theorem test_mod :
    csAfter .mod (one ref [-7, 2]) = some [⟨[-1], 5⟩] ∧
      csAfter .mod (one ref [7, -2]) = some [⟨[1], 5⟩] ∧
      csAfter .mod (one ref [-1, 5]) = some [⟨[-1], 5⟩] := by decide

theorem test_mod_faults :
    faultAfter .mod (one ref [5, 0]) = some 0x00040108 ∧
      faultAfter .mod (one ref [-32768, -1]) = some 0x00040109 := by decide

theorem test_not :
    csAfter .not (one ref [0]) = some [⟨[1], 5⟩] ∧
      csAfter .not (one ref [-32768]) = some [⟨[0], 5⟩] ∧
      faultAfter .not (one ref []) = some 0x00040101 := by decide

theorem test_or :
    csAfter .or (one ref [2, 1]) = some [⟨[1], 5⟩] ∧
      csAfter .or (one ref [0, 0]) = some [⟨[0], 5⟩] := by decide

theorem test_and :
    csAfter .and (one ref [2, 1]) = some [⟨[1], 5⟩] ∧
      csAfter .and (one ref [5, 0]) = some [⟨[0], 5⟩] := by decide

theorem test_eq :
    csAfter .eq (one ref [-1, -1]) = some [⟨[1], 5⟩] ∧
      csAfter .eq (one ref [-1, 1]) = some [⟨[0], 5⟩] := by decide

theorem test_gt :
    csAfter .gt (one ref [1, -1]) = some [⟨[1], 5⟩] ∧
      csAfter .gt (one ref [-32768, 32767]) = some [⟨[0], 5⟩] ∧
      csAfter .gt (one ref [4, 4]) = some [⟨[0], 5⟩] := by decide

theorem test_gte :
    csAfter .gte (one ref [4, 4]) = some [⟨[1], 5⟩] ∧
      csAfter .gte (one ref [3, 4]) = some [⟨[0], 5⟩] ∧
      csAfter .gte (one ref [-32768, 32767]) = some [⟨[0], 5⟩] := by decide

theorem test_jmp : csAfter (.jmp 9) (one ref [4]) = some [⟨[4], 9⟩] := by decide

theorem test_jmp_past_end :
    (after (step (machine ref [⟨[], 9⟩]))).map faultReg = some 0x00090106 := by decide

theorem test_jmpif :
    csAfter (.jmpif 6) (one ref [-32768]) = some [⟨[], 6⟩] ∧
      csAfter (.jmpif 60000) (one ref [0, 5]) = some [⟨[5], 5⟩] := by decide

theorem test_jmpif_faults :
    faultAfter (.jmpif 6) (one ref []) = some 0x00040102 ∧
      faultAfter (.jmpif 6) (one uniform []) = some 0x00040101 := by decide

theorem test_pop :
    csAfter .pop (one ref [2, 1]) = some [⟨[1], 5⟩] ∧
      faultAfter .pop (one ref []) = some 0x00040102 := by decide

theorem test_push :
    csAfter (.push 1) (one (caps 3 9) [0, 0]) = some [⟨[1, 0, 0], 5⟩] ∧
      faultAfter (.push 1) (one (caps 3 9) [0, 0, 0]) = some 0x00040103 := by decide

theorem test_store :
    csAfter (.store 3) (one ref [7, 8]) = some [⟨[8], 5⟩] ∧
      (after (exec (.store 3) (one ref [7, 8]))).map (·.g) = some [(3, 7)] ∧
      (after (exec (.store 65535) (one ref [-5]))).map (globalRead · 65535) = some (-5) := by decide

/-- Storing 0 keeps the canonical form, and a faulting STORE leaves G. -/
theorem test_store_zero :
    (after (exec (.store 3) { one ref [0] with g := [(3, 7)] })).map (·.g) = some [] ∧
      (after (exec (.store 3) { one ref [] with g := [(3, 7)] })).map (·.g) = some [(3, 7)] := by
  decide

theorem test_load :
    csAfter (.load 1) { one ref [] with g := [(1, 55)] } = some [⟨[55], 5⟩] ∧
      csAfter (.load 9) (one ref []) = some [⟨[0], 5⟩] ∧
      faultAfter (.load 1) (one (caps 1 9) [4]) = some 0x00040103 := by decide

theorem test_call :
    csAfter (.call 5) (machine ref [⟨[10], 1⟩]) = some [⟨[], 5⟩, ⟨[10], 2⟩] ∧
      csAfter (.call 1) (machine (caps 9 3) [⟨[3], 1⟩, ⟨[], 9⟩]) =
        some [⟨[], 1⟩, ⟨[3], 2⟩, ⟨[], 9⟩] := by decide

theorem test_call_overflow :
    faultAfter (.call 1) (machine (caps 9 2) [⟨[3], 1⟩, ⟨[], 9⟩]) = some 0x00010104 ∧
      (after (exec (.call 1) (machine (caps 9 2) [⟨[3], 1⟩, ⟨[], 9⟩]))).map (·.cs) =
        some [⟨[3], 1⟩, ⟨[], 9⟩] := by decide

theorem test_ret :
    csAfter .ret (machine ref [⟨[2, 1], 7⟩, ⟨[10], 2⟩]) = some [⟨[10], 2⟩] ∧
      csAfter .ret (machine ref [⟨[4], 1⟩]) = some [] := by decide

theorem test_ret_then_empty :
    (after (step (machine ref []))).map faultReg = some 0x00000005 := by decide

theorem test_retval :
    csAfter .retval (machine ref [⟨[42, 2, 1], 8⟩, ⟨[10], 2⟩]) = some [⟨[42, 10], 2⟩] := by decide

theorem test_retval_faults :
    faultAfter .retval (machine ref [⟨[4], 3⟩]) = some 0x00030105 ∧
      faultAfter .retval (machine ref [⟨[], 3⟩]) = some 0x00030102 ∧
      faultAfter .retval (machine (caps 2 9) [⟨[42], 8⟩, ⟨[2, 1], 2⟩]) = some 0x00080103 ∧
      (after (exec .retval (machine (caps 2 9) [⟨[42], 8⟩, ⟨[2, 1], 2⟩]))).map (·.cs) =
        some [⟨[42], 8⟩, ⟨[2, 1], 2⟩] := by decide

theorem test_out :
    (after (exec .out (one ref [-1]))).map (·.outLog) = some [⟨.out, -1⟩] ∧
      (after (exec .out (one ref []))).map (·.outLog) = some [] ∧
      faultAfter .out (one ref []) = some 0x00040102 := by decide

theorem test_halt :
    csAfter (.halt (-1)) (machine ref [⟨[-3, 7], 4⟩, ⟨[], 1⟩]) = some [⟨[], 1⟩] ∧
      (after (exec (.halt (-1)) (one ref []))).map (·.outLog) = some [⟨.halt, -1⟩] := by decide

theorem test_halt_registers :
    (after (exec (.halt (-1)) (one ref []))).map statusReg = some 0x0000000B ∧
      (after (exec (.halt (-1)) (one ref []))).map haltCodeReg = some 0x0000FFFF := by decide

/-! ### Steps and the host (95 2.7, 2.8) -/

/-- An illegal word is found before the instruction's own checks. -/
theorem test_step_illegal :
    (after (step { machine ref [⟨[], 2⟩] with imem := [(2, 0x01000001)] })).map faultReg =
      some 0x00020107 := by decide

/-- The pointer check comes before the fetch. -/
theorem test_step_pointer_first :
    (after (step { machine ref [⟨[], 9⟩] with imem := [(9, 0)] })).map faultReg =
      some 0x00090106 := by decide

/-- The last index a program can have. -/
theorem test_step_last_index :
    (after (step { machine ref [⟨[], 65534⟩] with
        imem := [(65534, 0x0F000001)], progLen := 65535 })).map (·.cs) =
      some [⟨[1], 65535⟩] := by decide

theorem test_start :
    (eventOn (.host (.writeReg 0x00 1)) State.reset).map (fun t => (t.cs, statusReg t)) =
      some ([⟨[], 0⟩], 0x00000001) := by decide

/-- The reserved bits of CTRL are ignored, not the command (R237). -/
theorem test_start_reserved_bits :
    (eventOn (.host (.writeReg 0x00 0xFFFFFFF9)) State.reset).map statusReg =
      some 0x00000001 := by decide

/-- A launch with a missing word is refused (R240). -/
theorem test_start_refused :
    event (.host (.writeReg 0x00 1)) { State.reset with progLen := 2, imem := [(0, 0)] } =
      .refused (.unwrittenWord 1) := rfl

theorem test_commands_ignored :
    eventOn (.host (.writeReg 0x00 2)) State.reset = some State.reset ∧
      eventOn (.host (.writeReg 0x00 3)) State.reset = some State.reset := by decide

theorem test_boot :
    (after (events (bootEvents [0x0F00000A, 0x16000000] 1) State.reset)).map
        (fun t => (t.estate, t.cs, t.imem)) =
      some (.running, [⟨[], 1⟩], [(0, 0x0F00000A), (1, 0x16000000)]) := by decide

theorem test_ports :
    replyOf (.readFrameIp 0) { machine ref [⟨[2, 1], 7⟩, ⟨[10], 2⟩] with estate := .paused } =
        some (.value 2) ∧
      replyOf (.readFrameEntry 1 1)
          { machine ref [⟨[2, 1], 7⟩, ⟨[10], 2⟩] with estate := .paused } =
        some (.value 2) := by decide

/-! ### Witnesses of the statements' hypotheses

`witness_<Name>` is for the statement `Obligations.<Name>`. -/

/-- A running engine about to fetch a word at ip 0, PROG_LEN 1. -/
abbrev fetching (w : IWord) : State :=
  { machine ref [⟨[], 0⟩] with progLen := 1, imem := [(0, w)] }

/-- The same in PAUSED. -/
abbrev halfway (w : IWord) : State := { fetching w with estate := .paused }

/-- The same in IDLE, with no frame. -/
abbrev loaded (w : IWord) : State := { fetching w with estate := .idle, cs := [] }

/-- An engine that has executed HALT -1. -/
abbrev stopped : State :=
  { machine ref [] with
    estate := .halted, halted := true, haltCode := -1, outLog := [⟨.halt, -1⟩] }

/-- An engine that took a fault at ip 7. -/
abbrev broken : State := faultRecord (machine ref [⟨[], 7⟩]) .operandUnderflow 7

theorem witness_DecodeInvertsEncode : decode 0x0F00FFFF = .ok (.push (-1)) := rfl

/-- The lowest index that can be fetched, with an illegal word. -/
theorem witness_IllegalWordsFault :
    (fetching 0x17000000).estate = .running ∧ (fetching 0x17000000).cs = ⟨[], 0⟩ :: [] ∧
      (0 : Idx) < (fetching 0x17000000).progLen ∧
      imemWord (fetching 0x17000000) 0 = some 0x17000000 ∧
      decode 0x17000000 = .error (.reservedOpcode 0x17) := ⟨rfl, rfl, by decide, rfl, rfl⟩

theorem witness_AssemblerAcceptsExactlyWellFormed_error :
    (∀ name, (SourceInstr.mk .ret (some (.decimal false 0))).operand ≠ some (.label name)) ∧
      (SourceInstr.mk .ret (some (.decimal false 0))).error? = some .strayOperand :=
  ⟨nofun, rfl⟩

theorem witness_AssemblerAcceptsExactlyWellFormed_lit :
    (∀ name, (SourceInstr.mk .push (some (.decimal true 32768))).operand ≠
        some (.label name)) ∧
      (SourceInstr.mk .push (some (.decimal true 32768))).wellFormed = true ∧
      Mnemonic.push.operandClass = .lit := ⟨nofun, rfl, rfl⟩

theorem witness_AssemblerAcceptsExactlyWellFormed_addr :
    (∀ name, (SourceInstr.mk .jmp (some (.decimal false 65535))).operand ≠
        some (.label name)) ∧
      (SourceInstr.mk .jmp (some (.decimal false 65535))).wellFormed = true ∧
      Mnemonic.jmp.operandClass = .addr := ⟨nofun, rfl, rfl⟩

theorem witness_AssemblerAcceptsExactlyWellFormed_hex :
    (∀ name, (SourceInstr.mk .halt (some (.hex 0xFFFF))).operand ≠ some (.label name)) ∧
      (SourceInstr.mk .halt (some (.hex 0xFFFF))).wellFormed = true := ⟨nofun, rfl⟩

theorem witness_StepRunsDecodedInstruction :
    (fetching 0x15000000).cs = ⟨[], 0⟩ :: [] ∧ (0 : Idx) < (fetching 0x15000000).progLen ∧
      imemWord (fetching 0x15000000) 0 = some 0x15000000 ∧ decode 0x15000000 = .ok .out ∧
      (fetching 0x15000000).estate = .running ∧ (halfway 0x15000000).estate = .paused ∧
      (halfway 0x15000000).cs = ⟨[], 0⟩ :: [] ∧
      imemWord (halfway 0x15000000) 0 = some 0x15000000 :=
  ⟨rfl, by decide, rfl, rfl, rfl, rfl, rfl, rfl⟩

theorem witness_StepRunsDecodedInstruction_illegal :
    (halfway 0xFF000000).cs = ⟨[], 0⟩ :: [] ∧ (0 : Idx) < (halfway 0xFF000000).progLen ∧
      imemWord (halfway 0xFF000000) 0 = some 0xFF000000 ∧
      decode 0xFF000000 = .error (.reservedOpcode 0xFF) ∧
      (halfway 0xFF000000).estate = .paused := ⟨rfl, by decide, rfl, rfl, rfl⟩

/-- A CTRL word that is STEP, with every reserved bit set. -/
abbrev stepWord : Event := .host (.writeReg 0x00 0xFFFFFFFC)

/-- The least pointer past the program, for the engine's step and for STEP. -/
theorem witness_StepFaultsBeforeFetching :
    (TakesStep .engine (machine ref []) ∧ (machine ref []).cs = []) ∧
      (TakesStep .engine (machine ref [⟨[], 9⟩]) ∧
        (machine ref [⟨[], 9⟩]).cs = ⟨[], 9⟩ :: [] ∧
        (machine ref [⟨[], 9⟩]).progLen ≤ 9) ∧
      TakesStep stepWord { machine ref [⟨[], 9⟩] with estate := .paused } :=
  ⟨⟨.inl ⟨rfl, rfl⟩, rfl⟩, ⟨.inl ⟨rfl, rfl⟩, rfl, by decide⟩, .inr ⟨_, rfl, by decide, rfl⟩⟩

theorem witness_StepOnlyInRunningOrByCommand :
    (fetching 0).estate = .running ∧ (halfway 0).estate = .paused ∧ (loaded 0).estate = .idle ∧
      stopped.estate = .halted ∧ broken.estate = .faulted := by decide

/-- An empty call stack, and a frame that is exactly full. -/
theorem witness_ExecAlwaysAnswersNext :
    (machine ref []).cs = [] ∧ (one (caps 2 1) [3, 5]).cs = ⟨[3, 5], 4⟩ :: [] ∧
      CapacityInv (one (caps 2 1) [3, 5]) ∧ (∀ code, Instr.add ≠ .halt code) := by
  refine ⟨rfl, rfl, by decide, nofun⟩

/-- A step that faults with a current frame. -/
theorem witness_FaultEntryIsPrecise :
    (fetching 0x15000000).estate = .running ∧ (fetching 0x15000000).cs = ⟨[], 0⟩ :: [] ∧
      step (fetching 0x15000000) =
        .next (faultRecord (fetching 0x15000000) .operandUnderflow 0) ∧
      (faultRecord (fetching 0x15000000) .operandUnderflow 0).estate = .faulted :=
  ⟨rfl, rfl, rfl, rfl⟩

/-- A step that faults with none. -/
theorem witness_FaultEntryIsPrecise_empty :
    (machine ref []).estate = .running ∧ (machine ref []).cs = [] ∧
      step (machine ref []) = .next (emptyRecord (machine ref [])) ∧
      (emptyRecord (machine ref [])).estate = .faulted := ⟨rfl, rfl, rfl, rfl⟩

/-- The least capacities. -/
theorem witness_InstructionCausesExact :
    2 ≤ (caps 2 2).opstackCap ∧ 2 ≤ (caps 2 2).callstackCap ∧
      FaultCause.operandOverflow ∈ ownCauses (caps 2 2) (.push 0) ∧
      (one (caps 2 2) [1, 1]).cfg = caps 2 2 ∧ CapacityInv (one (caps 2 2) [1, 1]) ∧
      (one (caps 2 2) [1, 1]).cs = ⟨[1, 1], 4⟩ :: [] := by decide

/-- The last index a program can have: the pointer becomes 65535 and does not wrap. -/
theorem witness_DefaultAdvanceNeverWraps :
    ({ machine ref [⟨[], 65534⟩] with progLen := 65535 } : State).cs = ⟨[], 65534⟩ :: [] ∧
      (65534 : Idx) < ({ machine ref [⟨[], 65534⟩] with progLen := 65535 } : State).progLen ∧
      advancesByOne (.push 1) = true ∧
      csAfter (.push 1) { machine ref [⟨[], 65534⟩] with progLen := 65535 } =
        some [⟨[1], 65535⟩] := by decide

theorem witness_DefaultAdvanceNeverWraps_jmpif :
    (one ref [0]).cs = ⟨[0], 4⟩ :: [] ∧ (one ref [0]).estate ≠ .faulted ∧
      (4 : Idx) < (one ref [0]).progLen ∧ csAfter (.jmpif 6) (one ref [0]) = some [⟨[], 5⟩] ∧
      csAfter (.jmpif 6) (one ref [1]) = some [⟨[], 6⟩] ∧
      csAfter (.jmp 65535) (one ref [1]) = some [⟨[1], 65535⟩] := by decide

/-- The hypotheses the binary ALU statements share: the two operands stand on the stack of a frame
that is within capacity. -/
abbrev Ready (s : State) (a b : Value) : Prop :=
  s.cs = ⟨[a, b], 4⟩ :: [] ∧ [a, b].length ≤ s.cfg.opstackCap

/-- The longest stack that is too short for a binary opcode, on the smallest capacity. -/
abbrev Short (s : State) : Prop :=
  s.cs = ⟨[5], 4⟩ :: [] ∧ [(5 : Value)].length ≤ s.cfg.opstackCap ∧ [(5 : Value)].length < 2

/-- The two ends of the range and the two values just outside it. -/
theorem witness_AddEffect :
    Short (one (caps 1 1) [5]) ∧
      (Ready (one ref [32767, 1]) 32767 1 ∧ ref.overflowMode = .wrap) ∧
      (Ready (one strict [32766, 1]) 32766 1 ∧ (32766 : Value).toInt + (1 : Value).toInt = 32767) ∧
      (Ready (one strict [-32768, 0]) (-32768) 0 ∧
        (-32768 : Value).toInt + (0 : Value).toInt = -32768) ∧
      (Ready (one strict [32767, 1]) 32767 1 ∧ strict.overflowMode = .fault ∧
        (32767 : Value).toInt + (1 : Value).toInt = 32768) ∧
      (Ready (one strict [-32768, -1]) (-32768) (-1) ∧ strict.overflowMode = .fault ∧
        (-32768 : Value).toInt + (-1 : Value).toInt = -32769) := by decide

/-- The two ends of the range and the two values just outside it. -/
theorem witness_SubEffect :
    Short (one (caps 1 1) [5]) ∧
      (Ready (one ref [0, -32768]) 0 (-32768) ∧ ref.overflowMode = .wrap) ∧
      (Ready (one strict [32767, 0]) 32767 0 ∧ (32767 : Value).toInt - (0 : Value).toInt = 32767) ∧
      (Ready (one strict [-1, 32767]) (-1) 32767 ∧
        (-1 : Value).toInt - (32767 : Value).toInt = -32768) ∧
      (Ready (one strict [0, -32768]) 0 (-32768) ∧ strict.overflowMode = .fault ∧
        (0 : Value).toInt - (-32768 : Value).toInt = 32768) ∧
      (Ready (one strict [-32768, 1]) (-32768) 1 ∧ strict.overflowMode = .fault ∧
        (-32768 : Value).toInt - (1 : Value).toInt = -32769) := by decide

/-- The two ends of the range and the two values just outside it. -/
theorem witness_MulEffect :
    Short (one (caps 1 1) [5]) ∧
      (Ready (one ref [-32768, -1]) (-32768) (-1) ∧ ref.overflowMode = .wrap) ∧
      (Ready (one strict [32767, 1]) 32767 1 ∧ (32767 : Value).toInt * (1 : Value).toInt = 32767) ∧
      (Ready (one strict [-16384, 2]) (-16384) 2 ∧
        (-16384 : Value).toInt * (2 : Value).toInt = -32768) ∧
      (Ready (one strict [-32768, -1]) (-32768) (-1) ∧ strict.overflowMode = .fault ∧
        (-32768 : Value).toInt * (-1 : Value).toInt = 32768) ∧
      (Ready (one strict [-10923, 3]) (-10923) 3 ∧ strict.overflowMode = .fault ∧
        (-10923 : Value).toInt * (3 : Value).toInt = -32769) := by decide

/-- The zero divisor, the overflowing corner and its two neighbours, which compute. -/
theorem witness_DivEffect :
    Short (one (caps 1 1) [5]) ∧ Ready (one ref [5, 0]) 5 0 ∧
      (Ready (one ref [-32768, -1]) (-32768) (-1) ∧ (-32768 : Value).toInt = -32768 ∧
        (-1 : Value).toInt = -1) ∧
      (Ready (one ref [-32767, -1]) (-32767) (-1) ∧ (-1 : Value) ≠ 0 ∧
        ¬((-32767 : Value).toInt = -32768 ∧ (-1 : Value).toInt = -1)) ∧
      (Ready (one ref [-32768, -2]) (-32768) (-2) ∧ (-2 : Value) ≠ 0 ∧
        ¬((-32768 : Value).toInt = -32768 ∧ (-2 : Value).toInt = -1)) := by decide

/-- The zero divisor, the overflowing corner and its two neighbours, which compute. -/
theorem witness_ModEffect :
    Short (one (caps 1 1) [5]) ∧ Ready (one ref [5, 0]) 5 0 ∧
      (Ready (one ref [-32768, -1]) (-32768) (-1) ∧ (-32768 : Value).toInt = -32768 ∧
        (-1 : Value).toInt = -1) ∧
      (Ready (one ref [-32767, -1]) (-32767) (-1) ∧ (-1 : Value) ≠ 0 ∧
        ¬((-32767 : Value).toInt = -32768 ∧ (-1 : Value).toInt = -1)) ∧
      (Ready (one ref [-32768, 1]) (-32768) 1 ∧ (1 : Value) ≠ 0 ∧
        ¬((-32768 : Value).toInt = -32768 ∧ (1 : Value).toInt = -1)) := by decide

theorem witness_NotEffect :
    (one (caps 1 1) [0]).cs = ⟨[0], 4⟩ :: [] ∧
      [(0 : Value)].length ≤ (one (caps 1 1) [0]).cfg.opstackCap ∧
      (one (caps 1 1) []).cs = ⟨[], 4⟩ :: [] ∧ ([] : List Value).length < 1 := by decide

theorem witness_OrEffect :
    Short (one (caps 1 1) [5]) ∧
      Ready (one ref [0, 0]) 0 0 ∧
      Ready (one ref [0, 5]) 0 5 := by decide

theorem witness_AndEffect :
    Short (one (caps 1 1) [5]) ∧
      Ready (one ref [5, -3]) 5 (-3) ∧
      Ready (one ref [5, 0]) 5 0 := by decide

theorem witness_EqEffect :
    Short (one (caps 1 1) [5]) ∧
      Ready (one ref [-1, -1]) (-1) (-1) ∧
      Ready (one ref [-1, 1]) (-1) 1 := by decide

theorem witness_GtEffect :
    Short (one (caps 1 1) [5]) ∧
      Ready (one ref [0, -32768]) 0 (-32768) ∧
      Ready (one ref [4, 4]) 4 4 := by decide

theorem witness_GteEffect :
    Short (one (caps 1 1) [5]) ∧
      Ready (one ref [-32768, -32768]) (-32768) (-32768) ∧
      Ready (one ref [-32768, 32767]) (-32768) 32767 := by decide

/-- The least target past the program, and a running engine. -/
theorem witness_JmpEffect :
    (one ref [4]).cs = ⟨[4], 4⟩ :: [] ∧ (one ref [4]).estate = .running ∧
      (one ref [4]).progLen ≤ (9 : Idx) := by decide

theorem witness_JmpifEffect :
    (one ref []).cs = ⟨[], 4⟩ :: [] ∧ (one ref []).cfg.uniformPrecheck = false ∧
      (one uniform []).cs = ⟨[], 4⟩ :: [] ∧ (one uniform []).cfg.uniformPrecheck = true ∧
      (one ref [-32768]).cs = ⟨[-32768], 4⟩ :: [] ∧ (one ref [-32768]).estate = .running ∧
      (-32768 : Value) ≠ 0 ∧ (one ref [-32768]).progLen ≤ (9 : Idx) := by decide

theorem witness_PopEffect :
    (one ref []).cs = ⟨[], 4⟩ :: [] ∧ (one ref []).cfg.uniformPrecheck = false ∧
      (one uniform []).cs = ⟨[], 4⟩ :: [] ∧ (one uniform []).cfg.uniformPrecheck = true ∧
      (one ref [1]).cs = ⟨[1], 4⟩ :: [] := by decide

/-- A full stack, and one with room for one value. -/
theorem witness_PushEffect :
    (one (caps 1 1) [0]).cs = ⟨[0], 4⟩ :: [] ∧
      [(0 : Value)].length = (one (caps 1 1) [0]).cfg.opstackCap ∧
      (one (caps 1 1) []).cs = ⟨[], 4⟩ :: [] ∧
      ([] : List Value).length < (one (caps 1 1) []).cfg.opstackCap := by decide

theorem witness_StoreEffect :
    (one ref []).cs = ⟨[], 4⟩ :: [] ∧ (one ref []).cfg.uniformPrecheck = false ∧
      (one uniform []).cs = ⟨[], 4⟩ :: [] ∧ (one uniform []).cfg.uniformPrecheck = true ∧
      (one ref [7]).cs = ⟨[7], 4⟩ :: [] ∧ (65534 : Idx) ≠ 65535 := by decide

/-- A run from reset in which nothing is stored. -/
theorem witness_LoadEffect_history :
    events (.host .reset :: [.host (.writeReg 0x04 7)]) stopped =
        .next { State.reset with entry := 7 } ∧
      ∀ (before later : List Event) (e : Event) (u v : State),
        [Event.host (.writeReg 0x04 7)] = before ++ e :: later →
          events (.host .reset :: before) stopped = .next u → event e u = .next v →
            ¬Stores e 3 u v := by
  refine ⟨rfl, fun before later e u v h _ _ hs => ?_⟩
  have he : e ∈ [Event.host (.writeReg 0x04 7)] := h ▸ by simp
  rw [List.mem_singleton] at he
  subst he
  rcases hs.1 with ⟨h, -⟩ | ⟨w, h, -⟩ <;> cases h

theorem witness_LoadEffect :
    (one (caps 1 1) [0]).cs = ⟨[0], 4⟩ :: [] ∧
      [(0 : Value)].length = (one (caps 1 1) [0]).cfg.opstackCap ∧
      (one (caps 1 1) []).cs = ⟨[], 4⟩ :: [] ∧
      ([] : List Value).length < (one (caps 1 1) []).cfg.opstackCap := by decide

/-- A full call stack, one with room for one frame, and the least target past the program. -/
theorem witness_CallEffect :
    (machine (caps 1 2) [⟨[3], 1⟩, ⟨[], 9⟩]).cs = ⟨[3], 1⟩ :: [⟨[], 9⟩] ∧
      (machine (caps 1 2) [⟨[3], 1⟩, ⟨[], 9⟩]).cs.length =
        (machine (caps 1 2) [⟨[3], 1⟩, ⟨[], 9⟩]).cfg.callstackCap ∧
      (machine (caps 1 2) [⟨[3], 1⟩]).cs.length <
        (machine (caps 1 2) [⟨[3], 1⟩]).cfg.callstackCap ∧
      (machine (caps 1 2) [⟨[3], 1⟩]).estate = .running ∧
      (machine (caps 1 2) [⟨[3], 1⟩]).progLen ≤ (9 : Idx) := by decide

theorem witness_RetEffect :
    (machine ref [⟨[4], 1⟩]).cs = ⟨[4], 1⟩ :: [] ∧ (machine ref [⟨[4], 1⟩]).estate = .running ∧
      (halfway 0x13000000).cs = ⟨[], 0⟩ :: [] ∧ (halfway 0x13000000).estate = .paused := by
  decide

theorem witness_RetvalEffect :
    (one ref []).cs = ⟨[], 4⟩ :: [] ∧ (one ref []).cfg.uniformPrecheck = false ∧
      (one uniform []).cs = ⟨[], 4⟩ :: [] ∧ (one uniform []).cfg.uniformPrecheck = true ∧
      (one ref [4]).cs = ⟨[4], 4⟩ :: [] ∧
      (machine (caps 1 2) [⟨[42], 8⟩, ⟨[1], 2⟩]).cs = ⟨[42], 8⟩ :: (⟨[1], 2⟩ :: []) ∧
      [(1 : Value)].length = (machine (caps 1 2) [⟨[42], 8⟩, ⟨[1], 2⟩]).cfg.opstackCap ∧
      (machine (caps 1 2) [⟨[42], 8⟩, ⟨[], 2⟩]).cs = ⟨[42], 8⟩ :: (⟨[], 2⟩ :: []) ∧
      ([] : List Value).length <
        (machine (caps 1 2) [⟨[42], 8⟩, ⟨[], 2⟩]).cfg.opstackCap := by decide

theorem witness_OutEffect :
    (one ref []).cs = ⟨[], 4⟩ :: [] ∧ (one ref []).cfg.uniformPrecheck = false ∧
      (one uniform []).cs = ⟨[], 4⟩ :: [] ∧ (one uniform []).cfg.uniformPrecheck = true ∧
      (one ref [-1]).cs = ⟨[-1], 4⟩ :: [] := by decide

/-- HALT with a frame beneath, and a host write that the halted engine answers. -/
theorem witness_HaltEffect :
    (machine ref [⟨[7], 4⟩, ⟨[], 1⟩]).cs = ⟨[7], 4⟩ :: [⟨[], 1⟩] ∧
      event (.host (.writeReg 0x00 2)) stopped = .next stopped ∧
      Event.host (.writeReg 0x00 2) ≠ .host .reset := ⟨rfl, rfl, nofun⟩

theorem witness_DivModLaw :
    (one (caps 2 1) [-32768, 1]).cs = ⟨[-32768, 1], 4⟩ :: [] ∧
      [(-32768 : Value), 1].length ≤ (one (caps 2 1) [-32768, 1]).cfg.opstackCap ∧
      (1 : Value) ≠ 0 ∧ ¬((-32768 : Value).toInt = -32768 ∧ (1 : Value).toInt = -1) := by decide

theorem witness_CommutativeOpcodes :
    Instr.mul ∈ [Instr.add, .mul, .and, .or, .eq] ∧ (one ref []).estate ≠ .faulted ∧
      csAfter .mul { one ref [] with cs := ⟨[7, 2], 4⟩ :: [] } = some [⟨[14], 5⟩] := by decide

theorem witness_PushStoreLoadRoundTrip :
    (one (caps 1 1) []).cs = ⟨[], 4⟩ :: [] ∧
      ([] : List Value).length < (one (caps 1 1) []).cfg.opstackCap ∧ (0 : Idx) ≠ 65535 := by
  decide

/-- A call, a callee that pushed one value, and a caller with room for it. -/
theorem witness_CallThenReturnRestoresCaller :
    (machine (caps 2 2) [⟨[10], 1⟩]).cs = ⟨[10], 1⟩ :: [] ∧
      (machine (caps 2 2) [⟨[10], 1⟩]).estate ≠ .faulted ∧
      exec (.call 5) (machine (caps 2 2) [⟨[10], 1⟩]) =
        .next (machine (caps 2 2) [⟨[], 5⟩, ⟨[10], 2⟩]) ∧
      (machine (caps 2 2) [⟨[42], 6⟩, ⟨[10], 2⟩]).cs =
        ⟨[42], 6⟩ :: (machine (caps 2 2) [⟨[], 5⟩, ⟨[10], 2⟩]).cs.tail ∧
      [(10 : Value)].length < (machine (caps 2 2) [⟨[42], 6⟩, ⟨[10], 2⟩]).cfg.opstackCap :=
  ⟨rfl, by decide, rfl, rfl, by decide⟩

theorem witness_ExecFrame :
    exec .pop (one ref [1]) = .next (machine ref [⟨[], 5⟩]) ∧
      exec .pop (one ref []) = .next (faultRecord (one ref []) .operandUnderflow 4) ∧
      Instr.pop ≠ .out ∧ ∀ code, Instr.pop ≠ .halt code := ⟨rfl, rfl, nofun, nofun⟩

theorem witness_GlobalsFrame :
    exec .pop (one ref [1]) = .next (machine ref [⟨[], 5⟩]) ∧
      (∀ a, Instr.pop ≠ .load a) ∧ (∀ a, Instr.pop ≠ .store a) ∧
      exec (.store 3) (one ref [7]) = .next { machine ref [⟨[], 5⟩] with g := [(3, 7)] } ∧
      Instr.store 3 ≠ .store 4 := ⟨rfl, nofun, nofun, rfl, by decide⟩

/-- An event that stores, and a host write that is neither reset nor CTRL. -/
theorem witness_GlobalsFrame_events :
    Event.engine ≠ .host .reset ∧
      event .engine { fetching 0x10000003 with cs := [⟨[7], 0⟩] } =
        .next { fetching 0x10000003 with cs := [⟨[], 1⟩], g := [(3, 7)] } ∧
      globalRead { fetching 0x10000003 with cs := [⟨[], 1⟩], g := [(3, 7)] } 3 ≠
        globalRead { fetching 0x10000003 with cs := [⟨[7], 0⟩] } 3 ∧
      (∀ w, HostAction.writeReg 0x04 7 ≠ .writeReg 0x00 w) ∧
      HostAction.writeReg 0x04 7 ≠ .reset ∧
      hostAct (.writeReg 0x04 7) (loaded 0) = .next (.done, { loaded 0 with entry := 7 }) :=
  ⟨nofun, rfl, by decide, nofun, nofun, rfl⟩

theorem witness_CallStackFrame :
    (machine ref [⟨[42], 8⟩, ⟨[10], 2⟩]).cs = ⟨[42], 8⟩ :: [⟨[10], 2⟩] ∧
      exec .retval (machine ref [⟨[42], 8⟩, ⟨[10], 2⟩]) = .next (machine ref [⟨[42, 10], 2⟩]) :=
  ⟨rfl, rfl⟩

theorem witness_ProgramConstantWhileStarted :
    exec .pop (one ref [1]) = .next (machine ref [⟨[], 5⟩]) ∧ (halfway 0).estate ≠ .idle ∧
      Event.host (.writeImem 0 1) ≠ .host .reset ∧
      event (.host (.writeImem 0 1)) (halfway 0) = .next (halfway 0) :=
  ⟨rfl, by decide, nofun, rfl⟩

theorem witness_InvAtReset : ref.wellFormed = true := rfl

/-- The invariant holds of a running engine that has called: the frame beneath the top points one
past its CALL. Its next step, a RET, answers. -/
abbrev called : State :=
  { machine ref [⟨[], 1⟩, ⟨[10], 1⟩] with
    progLen := 2, imem := [(0, 0x12000001), (1, 0x13000000)] }

theorem called_loaded : LoadedInv called := by
  intro _ i hi
  have h : i.toNat < 2 := hi
  rcases i.toNat.lt_succ_iff_lt_or_eq.1 h with h | h
  · have : i = 0 := BitVec.eq_of_toNat_eq (by simpa using h)
    subst this
    exact ⟨_, rfl⟩
  · have : i = 1 := BitVec.eq_of_toNat_eq h
    subst this
    exact ⟨_, rfl⟩

theorem called_returns : ReturnInv called := by
  intro f hf
  have : f = ⟨[10], 1⟩ := by simpa using hf
  subst this
  exact ⟨by decide, 1, rfl⟩

theorem called_inv : EngineInv called :=
  ⟨by decide, by decide, by decide, by decide, called_returns, by decide, called_loaded⟩

theorem witness_InvKeptByStep :
    EngineInv called ∧ step called = .next { called with cs := [⟨[10], 1⟩] } :=
  ⟨called_inv, rfl⟩

theorem witness_InvKeptByHost :
    EngineInv called ∧ hostAct .reset called = .next (.done, State.reset) ∧
      hostAct (.readReg 0x01) called = .next (.word 2, called) := ⟨called_inv, rfl, rfl⟩

theorem witness_RunningEngineNeverStops :
    EngineInv called ∧ called.estate = .running ∧
      EngineInv { called with estate := .paused } :=
  ⟨called_inv, rfl,
    ⟨by decide, by decide, by decide, by decide, called_returns, by decide,
      fun _ => called_loaded (by decide)⟩⟩

theorem witness_ReturnAddressesKept :
    ReturnInv called ∧ step called = .next { called with cs := [⟨[10], 1⟩] } :=
  ⟨called_returns, rfl⟩

/-- The step that sets HALTED, the reset that clears it, and a halted state. -/
theorem witness_HaltedSetOnlyByHalt :
    event .engine (fetching 0x1600FFFF) =
        .next { stopped with progLen := 1, imem := [(0, 0x1600FFFF)] } ∧
      (fetching 0x1600FFFF).halted = false ∧
      event (.host .reset) stopped = .next State.reset ∧ stopped.halted = true ∧
      State.reset.halted = false ∧ StatusInv stopped := ⟨rfl, rfl, rfl, rfl, rfl, by decide⟩

theorem witness_OutputLogOnlyGrows :
    Event.engine ≠ .host .reset ∧
      event .engine (fetching 0x1600FFFF) =
        .next { stopped with progLen := 1, imem := [(0, 0x1600FFFF)] } ∧
      event .engine (fetching 0x15000000) =
        .next (faultRecord (fetching 0x15000000) .operandUnderflow 0) ∧
      (fetching 0x15000000).estate ≠ .faulted := ⟨nofun, rfl, rfl, by decide⟩

/-- The last index that exists, in IDLE and outside it. -/
theorem witness_ProgramLoadInIdle :
    State.reset.estate = .idle ∧ (65534 : Idx) ≠ 0xFFFF#16 ∧ (65533 : Idx) ≠ 65534 ∧
      (halfway 0).estate ≠ .idle := by decide

/-- An admitted launch, a launch with a missing word, and the other commands' states. -/
theorem witness_StartAndRunCommands :
    (loaded 0).estate = .idle ∧
      (∀ i : Idx, i < (loaded 0).progLen → ∃ w, imemWord (loaded 0) i = some w) ∧
      ({ State.reset with progLen := 1 } : State).estate = .idle ∧
      (0 : Idx) < ({ State.reset with progLen := 1 } : State).progLen ∧
      imemWord { State.reset with progLen := 1 } 0 = none ∧ (halfway 0).estate = .paused ∧
      (halfway 0).estate ≠ .idle ∧ (fetching 0).estate ≠ .paused ∧
      (fetching 0).estate = .running ∧ HostAction.writeImem 0 1 ≠ .reset ∧
      event (.host (.writeImem 0 1)) (fetching 0) = .next (fetching 0) ∧
      (0xFFFFFFF9 : BitVec 32).extractLsb' 0 3 = 1#3 ∧
      (0xFFFFFFFA : BitVec 32).extractLsb' 0 3 = 2#3 := by
  refine ⟨rfl, fun i hi => ?_, rfl, by decide, rfl, rfl, by decide, by decide, rfl, nofun, rfl,
    by decide, by decide⟩
  have : i = 0 := BitVec.eq_of_toNat_eq (Nat.lt_one_iff.1 hi)
  subst this
  exact ⟨_, rfl⟩

/-- The three ends of a STEP. -/
theorem witness_StepCommand :
    (0xFFFFFFFC : BitVec 32).extractLsb' 0 3 = 4#3 ∧ (halfway 0x1600FFFF).estate = .paused ∧ (fetching 0).estate ≠ .paused ∧
      engineStep (halfway 0x1600FFFF) =
        .next { stopped with progLen := 1, imem := [(0, 0x1600FFFF)] } ∧
      engineStep (halfway 0x15000000) =
        .next (faultRecord (halfway 0x15000000) .operandUnderflow 0) ∧
      engineStep (halfway 0x0F000001) =
        .next { halfway 0x0F000001 with cs := [⟨[1], 1⟩] } := 
  ⟨by decide, rfl, by decide, rfl, rfl, rfl⟩

/-- The rows of a step: a HALT, an empty call stack, a pointer past the program, an illegal word, an
instruction that faults and one that completes. -/
theorem witness_LifecycleTransitions_steps :
    (TakesStep .engine (fetching 0x1600FFFF) ∧
        CurrentInstr (fetching 0x1600FFFF) (.halt (-1))) ∧
      (TakesStep .engine (machine ref []) ∧ (machine ref []).cs = []) ∧
      (TakesStep .engine (machine ref [⟨[], 9⟩]) ∧
        (machine ref [⟨[], 9⟩]).cs = ⟨[], 9⟩ :: [] ∧
        (machine ref [⟨[], 9⟩]).progLen ≤ 9) ∧
      (TakesStep stepWord (halfway 0xFF000000) ∧
        fetchWord (halfway 0xFF000000) 0 = some 0xFF000000 ∧
        decode 0xFF000000 = .error (.reservedOpcode 0xFF)) ∧
      (TakesStep stepWord (halfway 0x15000000) ∧ CurrentInstr (halfway 0x15000000) .out ∧
        (∀ code, Instr.out ≠ .halt code) ∧
        exec .out (halfway 0x15000000) =
          .next (faultRecord (halfway 0x15000000) .operandUnderflow 0)) ∧
      (TakesStep .engine (fetching 0x0F000001) ∧
        CurrentInstr (fetching 0x0F000001) (.push 1) ∧
        exec (.push 1) (fetching 0x0F000001) =
          .next { fetching 0x0F000001 with cs := [⟨[1], 1⟩] }) :=
  ⟨⟨.inl ⟨rfl, rfl⟩, _, _, rfl, rfl⟩, ⟨.inl ⟨rfl, rfl⟩, rfl⟩,
    ⟨.inl ⟨rfl, rfl⟩, rfl, by decide⟩, ⟨.inr ⟨_, rfl, by decide, rfl⟩, rfl, rfl⟩,
    ⟨.inr ⟨_, rfl, by decide, rfl⟩, ⟨_, _, rfl, rfl⟩, nofun, rfl⟩,
    ⟨.inl ⟨rfl, rfl⟩, ⟨_, _, rfl, rfl⟩, rfl⟩⟩

theorem witness_LifecycleTransitions :
    event (.host (.writeReg 0x00 2)) (halfway 0) = .next (fetching 0) ∧
      (stopped.estate = .halted ∧
        event (.host (.writeReg 0x00 4)) stopped = .next stopped) ∧
      (broken.estate = .faulted ∧
        event (.host (.writeReg 0x00 1)) broken = .next broken) ∧
      (loaded 0).estate = .idle ∧
      (∀ i : Idx, i < (loaded 0).progLen → ∃ w, imemWord (loaded 0) i = some w) ∧
      (halfway 0).estate = .paused :=
  ⟨rfl, ⟨rfl, rfl⟩, ⟨rfl, rfl⟩, rfl, witness_StartAndRunCommands.2.1, rfl⟩

/-- The largest call stack the register can show is not asked for; 0x07 is the least reserved
number. -/
theorem witness_HostRegisterLayout :
    stopped.estate ≠ .running ∧ broken.estate ≠ .running ∧ stopped.cs.length < 131072 ∧
      (0x07#8) ≤ 0x07#8 := by decide

/-- Two frames, each read with one entry beneath. -/
theorem witness_HostReadsHaveNoEffect :
    hostAct (.readReg 0x01) (fetching 0) = .next (.word 2, fetching 0) ∧
      stopped.estate ≠ .running ∧ (0 : Idx) ≠ 0xFFFF#16 ∧ imemWord (halfway 0) 0 = some 0 ∧
      ({ called with estate := .paused } : State).cs = [⟨[], 1⟩] ++ ⟨[10], 1⟩ :: [] ∧
      [(10 : Value)] = [] ++ 10 :: [] ∧ (fetching 0).estate = .running :=
  ⟨rfl, by decide, by decide, rfl, rfl, rfl, rfl⟩

theorem witness_IllegalHostWritesIgnored :
    ((1 : BitVec 32).extractLsb' 0 3 = 1#3 ∧ (halfway 0).estate ≠ .idle) ∧
      ((2 : BitVec 32).extractLsb' 0 3 = 2#3 ∧ (loaded 0).estate ≠ .paused) ∧
      ((4 : BitVec 32).extractLsb' 0 3 = 4#3 ∧ (fetching 0).estate ≠ .paused) ∧
      (3 : BitVec 32).extractLsb' 0 3 ∉ ([1, 2, 4] : List (BitVec 3)) ∧
      (0x01 : BitVec 8) ≠ 0x00 ∧ (0x01 : BitVec 8) ≠ 0x04 ∧ (0x01 : BitVec 8) ≠ 0x05 := by
  decide

theorem witness_BootStartsTheProgram :
    [(0x16000000 : IWord)].length ≤ 65535 ∧ (0 : Idx).toNat < [(0x16000000 : IWord)].length := by
  decide

theorem witness_RunLoopReportsEndsTruly :
    runLoop 1 (fetching 0x1600FFFF) =
        .ended { stopped with progLen := 1, imem := [(0, 0x1600FFFF)] } ∧
      EngineInv called ∧ called.estate = .running := ⟨rfl, called_inv, rfl⟩

end Sys2Proof.Tests
end

section
/-! PROOFS. What every proof about steps needs: the word a decoded instruction came from, and an
inversion of one instruction, one engine step and one event. It is coarser than `Effect`: what an
instruction does to the call stack stands apart from what it does beside it, so that a clause about
one of the two splits four ways and not twenty-two. -/

namespace Sys2Proof.Machine

/-! ### A decoded word is its instruction's word -/

/-- An instruction of class none is listed under its own opcode. -/
theorem opcodeOf_of_inl {op : BitVec 8} {i : Instr} (h : decodeOpcode op = some (.inl i)) :
    opcodeOf i = op ∧ immOf i = 0 := by
  unfold decodeOpcode at h
  split at h <;> cases h <;> rename_i hop <;> exact ⟨BitVec.eq_of_toNat_eq hop.symm, rfl⟩

/-- An instruction that takes the immediate is listed under its own opcode and carries it. -/
theorem opcodeOf_of_inr {op : BitVec 8} {mk : BitVec 16 → Instr}
    (h : decodeOpcode op = some (.inr mk)) (imm : BitVec 16) :
    opcodeOf (mk imm) = op ∧ immOf (mk imm) = imm := by
  unfold decodeOpcode at h
  split at h <;> cases h <;> rename_i hop <;> exact ⟨BitVec.eq_of_toNat_eq hop.symm, rfl⟩

/-- The decoder inverts the encoder: no other word decodes to `i` (30_encoding R87). -/
theorem encode_of_decode {w : IWord} {i : Instr} (h : decode w = .ok i) : encode i = w := by
  obtain ⟨hrsv, hshape⟩ := decode_ok h
  have hfields : opcodeOf i = opField w ∧ immOf i = immField w := by
    rcases hshape with ⟨hop, himm⟩ | ⟨mk, hop, rfl⟩
    · rw [himm]
      exact opcodeOf_of_inl hop
    · exact opcodeOf_of_inr hop _
  calc encode i = opField w ++ rsvField w ++ immField w := by
        rw [encode, hfields.1, hfields.2, hrsv]
    _ = w := word_of_fields w

theorem fetchWord_of_lt {s : State} {i : Idx} (h : i < s.progLen) :
    fetchWord s i = imemWord s i := if_pos h

theorem fetchWord_congr {s t : State} (hi : t.imem = s.imem) (hl : t.progLen = s.progLen) :
    fetchWord t = fetchWord s := by
  funext i
  simp only [fetchWord, imemWord, hi, hl]

/-! ### One instruction: the call stack, and what stands beside it -/

/-- The call stacks an instruction may leave when it completes with the frame `f` on top of `rest`.
`top` and `drop` do not say which instruction does so: no statement here asks. -/
inductive Frames (s : State) (f : Frame) (rest : List Frame) : Instr → List Frame → Prop where
  | top (i : Instr) (S : List Value) (ip : Idx)
      (hS : f.stack.length ≤ s.cfg.opstackCap → S.length ≤ s.cfg.opstackCap) :
      Frames s f rest i (⟨S, ip⟩ :: rest)
  | drop (i : Instr) : Frames s f rest i rest
  | call (addr : Idx) (hroom : (f :: rest).length ≠ s.cfg.callstackCap) :
      Frames s f rest (.call addr) (⟨[], addr⟩ :: ⟨f.stack, f.ip + 1⟩ :: rest)
  | retval (v : Value) (C : Frame) (below : List Frame) (hrest : rest = C :: below)
      (hroom : C.stack.length ≠ s.cfg.opstackCap) :
      Frames s f rest .retval (⟨v :: C.stack, C.ip⟩ :: below)

/-- The states an instruction may make of `s` before it puts its call stack in place. -/
inductive Beside (s : State) : Instr → State → Prop where
  | nothing (i : Instr) : Beside s i s
  | store (addr : Idx) (v : Value) : Beside s (.store addr) (s.globalWrite addr v)
  | out (v : Value) : Beside s .out (s.emit .out v)
  | halt (code : Value) : Beside s (.halt code) ((s.setHalted code).emit .halt code)

/-- What an instruction that completes does, from `s` to `t`. -/
inductive Completes (i : Instr) (s : State) : State → Prop where
  | intro (f : Frame) (rest : List Frame) (u : State) (cs : List Frame) (hcs : s.cs = f :: rest)
      (hu : Beside s i u) (hf : Frames s f rest i cs) : Completes i s (u.setCs cs)

/-- An instruction that only replaces the top frame completes. -/
theorem Completes.of_top {i : Instr} {s : State} {f : Frame} {rest : List Frame} {u : State}
    {S : List Value} {ip : Idx} (hcs : s.cs = f :: rest) (hu : Beside s i u)
    (hS : f.stack.length ≤ s.cfg.opstackCap → S.length ≤ s.cfg.opstackCap) :
    Completes i s (u.setCs (⟨S, ip⟩ :: rest)) :=
  ⟨f, rest, u, _, hcs, hu, .top i S ip hS⟩

theorem BinaryEffect.completes {op : Value → Value → Except FaultCause Value} {i : Instr}
    {s t : State} {f : Frame} {rest : List Frame} (hcs : s.cs = f :: rest)
    (h : BinaryEffect op s f rest t) : Completes i s t := by
  obtain ⟨a, b, r, S, hf, -, -, rfl⟩ := h
  exact .of_top hcs (.nothing i) (by simp only [hf, List.length_cons]; omega)

theorem Effect.completes {i : Instr} {s t : State} {f : Frame} {rest : List Frame}
    (hcs : s.cs = f :: rest) (h : Effect s f rest t i) : Completes i s t := by
  cases i with
  | add | sub | mul | div | mod | or | and | eq | gt | gte =>
    exact BinaryEffect.completes hcs h
  | not =>
    obtain ⟨a, S, hf, -, rfl⟩ := h
    exact .of_top hcs (.nothing _) (by simp [hf])
  | jmp addr =>
    obtain rfl := h
    exact .of_top hcs (.nothing _) id
  | jmpif addr =>
    obtain ⟨a, S, hf, rfl⟩ := h
    exact .of_top hcs (.nothing _) (by simp only [hf, List.length_cons]; omega)
  | pop =>
    obtain ⟨a, S, hf, rfl⟩ := h
    exact .of_top hcs (.nothing _) (by simp only [hf, List.length_cons]; omega)
  | push v =>
    obtain ⟨hroom, rfl⟩ := h
    exact .of_top hcs (.nothing _) (by simp only [List.length_cons]; omega)
  | store addr =>
    obtain ⟨v, S, hf, rfl⟩ := h
    exact .of_top hcs (.store addr v) (by simp only [hf, List.length_cons]; omega)
  | load addr =>
    obtain ⟨hroom, rfl⟩ := h
    exact .of_top hcs (.nothing _) (by simp only [List.length_cons]; omega)
  | call addr =>
    obtain ⟨hroom, rfl⟩ := h
    exact ⟨f, rest, s, _, hcs, .nothing _, .call addr hroom⟩
  | ret =>
    obtain rfl := h
    exact ⟨f, rest, s, _, hcs, .nothing _, .drop _⟩
  | retval =>
    obtain ⟨v, S, C, below, -, hrest, hroom, rfl⟩ := h
    exact ⟨f, rest, s, _, hcs, .nothing _, .retval v C below hrest hroom⟩
  | out =>
    obtain ⟨v, S, hf, rfl⟩ := h
    exact .of_top hcs (.out v) (by simp only [hf, List.length_cons]; omega)
  | halt code =>
    obtain rfl := h
    exact ⟨f, rest, _, rest, hcs, .halt code, .drop _⟩

/-- An instruction that answers enters a fault or completes. -/
theorem exec_next {i : Instr} {s t : State} (h : exec i s = .next t) :
    (∃ c ip, c ≠ .none ∧ t = s.raise c ip) ∨ Completes i s t := by
  obtain ⟨u, hu, hA⟩ := exec_answers i s
  obtain rfl : t = u := by simpa [h] using hu
  rcases hA with ⟨-, ht⟩ | ⟨f, rest, hcs, ⟨c, hc, ht⟩ | hE⟩
  · exact .inl ⟨.emptyCallStack, none, by decide, ht⟩
  · exact .inl ⟨c, some f.ip, hc.ne_none, ht⟩
  · exact .inr (hE.completes hcs)

/-- A step of the engine that answers enters a fault, or its current instruction completes. -/
theorem engineStep_cases {s t : State} (h : engineStep s = .next t) :
    (∃ c ip, c ≠ .none ∧ t = s.raise c ip) ∨
      ∃ i, CurrentInstr s i ∧ exec i s = .next t ∧ Completes i s t := by
  rcases engineStep_next h with ⟨-, ht⟩ | ⟨f, rest, hcs, ⟨c, hc, ht⟩ | ⟨w, i, hl, hw, hd, hx, hE⟩⟩
  · exact .inl ⟨.emptyCallStack, none, by decide, ht⟩
  · exact .inl ⟨c, some f.ip, hc, ht⟩
  · have hfetch : fetchWord s f.ip = some (encode i) := by
      rw [fetchWord_of_lt hl, hw, encode_of_decode hd]
    exact .inr ⟨i, ⟨f, rest, hcs, hfetch⟩, hx, hE.completes hcs⟩

/-! ### What an instruction keeps beside the call stack -/

section
variable {s u : State} {i : Instr}

theorem Beside.program (h : Beside s i u) :
    u.cfg = s.cfg ∧ u.imem = s.imem ∧ u.progLen = s.progLen ∧ u.entry = s.entry := by
  cases h <;> exact ⟨rfl, rfl, rfl, rfl⟩

theorem Beside.halting (h : Beside s i u) :
    (u.halted = s.halted ∧ u.estate = s.estate) ∨ ∃ code, i = .halt code ∧ u.halted = true ∧
      u.estate = .halted := by
  cases h with
  | halt code => exact .inr ⟨code, rfl, rfl, rfl⟩
  | _ => exact .inl ⟨rfl, rfl⟩

end

/-! ### One event -/

/-- `t` is `s` but for what the host's acts other than reset and STEP can write: the program, the
frame of START, ENGINE_STATE and the model's draw counter. -/
def OnlyHostWrites (s t : State) : Prop :=
  t = { s with imem := t.imem, progLen := t.progLen, entry := t.entry, cs := t.cs,
               estate := t.estate, draws := t.draws }

theorem OnlyDraws.onlyHostWrites {s t : State} (h : OnlyDraws s t) : OnlyHostWrites s t := by
  rw [h]
  rfl

theorem OnlyDraws.globals {s t : State} (h : OnlyDraws s t) : t.g = s.g := by
  rw [h]

theorem OnlyDraws.frames {s t : State} (h : OnlyDraws s t) : t.cs = s.cs := by
  rw [h]

theorem OnlyHostWrites.globals {s t : State} (h : OnlyHostWrites s t) : t.g = s.g := by
  rw [h]

theorem OnlyHostWrites.halted {s t : State} (h : OnlyHostWrites s t) : t.halted = s.halted := by
  rw [h]

/-- An event that answers takes a step of the engine, is reset, or writes what the host may. -/
theorem event_cases {e : Event} {s t : State} (h : event e s = .next t) :
    (TakesStep e s ∧ engineStep s = .next t) ∨ (e = .host .reset ∧ t = s.hostReset) ∨
      OnlyHostWrites s t := by
  cases e with
  | engine =>
    obtain ⟨hr, hs⟩ := step_next h
    exact .inl ⟨.inl ⟨rfl, hr⟩, hs⟩
  | host a =>
    obtain ⟨r, ha⟩ := event_host h
    cases hostAct_effect ha with
    | reset => exact .inr (.inl ⟨rfl, rfl⟩)
    | nothing _ _ _ _ ht => exact .inr (.inr ht.onlyHostWrites)
    | step w _ _ hw he hs => exact .inl ⟨.inr ⟨w, rfl, hw, he⟩, hs⟩
    | imem | entry | progLen | start | run => exact .inr (.inr rfl)

/-- ENGINE_STATE is one of the two in which the engine takes steps (40_dispatch R100). -/
def Active (s : State) : Prop := s.estate = .running ∨ s.estate = .paused

theorem Active.not_idle {s : State} (h : Active s) : s.estate ≠ .idle := by
  rcases h with h | h <;> simp [h]

theorem Active.not_halted {s : State} (h : Active s) : s.estate ≠ .halted := by
  rcases h with h | h <;> simp [h]

theorem Active.not_faulted {s : State} (h : Active s) : s.estate ≠ .faulted := by
  rcases h with h | h <;> simp [h]

theorem TakesStep.active {e : Event} {s : State} (h : TakesStep e s) : Active s := by
  rcases h with ⟨-, h⟩ | ⟨w, -, -, h⟩
  · exact .inl h
  · exact .inr h

end Sys2Proof.Machine
end

section
/-! PROOFS. The engine's invariant: it holds after reset (10_state R46) and every step of the
engine, in RUNNING or by STEP in PAUSED, keeps it (10_state R47; 40_dispatch R112; 44_call R173;
45_output_halt R182). Each clause is kept by its own lemma. -/

namespace Sys2Proof.Machine

/-! ### Fault entry -/

section
variable {s : State} {c : FaultCause} {ip : Option Idx}

theorem StatusInv.raise (h : StatusInv s) (ha : Active s) (hc : c ≠ .none) :
    StatusInv (s.raise c ip) := by
  obtain ⟨hhalted, -, hcode, -, -⟩ := h
  have hnot : s.halted ≠ true := fun hs => ha.not_halted (hhalted.1 hs)
  refine ⟨by simpa using hnot, by simpa using hc, fun _ => hcode ha.not_halted, by simp, ?_⟩
  cases ip <;> simp

theorem OutLogInv.raise (h : OutLogInv s) (ha : Active s) : OutLogInv (s.raise c ip) :=
  ⟨fun _ => h.1 ha.not_halted, fun he => nomatch he⟩

theorem EngineInv.raise (h : EngineInv s) (ha : Active s) (hc : c ≠ .none) :
    EngineInv (s.raise c ip) where
  memory := h.memory
  capacity := h.capacity
  status := h.status.raise ha hc
  outLog := h.outLog.raise ha
  returns := h.returns
  idle := fun he => nomatch he
  loaded := fun _ => h.loaded ha.not_idle

end

/-! ### Completion, beside the call stack -/

section
variable {s u : State} {i : Instr}

theorem Beside.memory (h : Beside s i u) (hm : Memory.wf s) : Memory.wf u := by
  cases h with
  | store a v => exact Memory.wf_globalWrite hm a v
  | _ => exact hm

theorem Beside.status (h : Beside s i u) (hs : StatusInv s) (ha : Active s) : StatusInv u := by
  cases h with
  | halt code =>
    obtain ⟨-, hcause, -, hrecord, hip⟩ := hs
    have hnone : s.faultCause = .none := by
      by_contra hne
      exact ha.not_faulted (hcause.1 hne)
    exact ⟨by simp, by simp [hnone], by simp, fun _ => hrecord ha.not_faulted, hip⟩
  | _ => exact hs

/-- HALT's event is the first of its kind and goes to the end (45_output_halt R182). -/
theorem Beside.outLog (h : Beside s i u) (ho : OutLogInv s) (ha : Active s) : OutLogInv u := by
  have hout := ho.1 ha.not_halted
  cases h with
  | halt code => exact ⟨fun he => absurd rfl he, fun _ => ⟨by simp, by simpa using hout⟩⟩
  | out v =>
    refine ⟨fun _ e he => ?_, fun he => absurd he ha.not_halted⟩
    rcases List.mem_append.1 he with he | he
    · exact hout e he
    · rw [List.mem_singleton.1 he]
  | _ => exact ho

theorem Beside.not_idle (h : Beside s i u) (ha : Active s) : u.estate ≠ .idle := by
  rcases h.halting with ⟨-, he⟩ | ⟨_, -, -, he⟩
  · rw [he]
    exact ha.not_idle
  · simp [he]

end

/-! ### Completion, on the call stack -/

section
variable {s : State} {f : Frame} {rest cs : List Frame} {i : Instr}

theorem Frames.capacity (h : Frames s f rest i cs) (hcs : s.cs = f :: rest) (hc : CapacityInv s) :
    cs.length ≤ s.cfg.callstackCap ∧ ∀ g ∈ cs, g.stack.length ≤ s.cfg.opstackCap := by
  obtain ⟨-, hlen, hstack⟩ := hc
  simp only [hcs, List.length_cons, List.forall_mem_cons] at hlen hstack
  obtain ⟨hf, hrest⟩ := hstack
  cases h with
  | top _ S ip hS => exact ⟨hlen, List.forall_mem_cons.2 ⟨hS hf, hrest⟩⟩
  | drop => exact ⟨by omega, hrest⟩
  | call addr hroom =>
    simp only [List.length_cons] at hroom
    exact ⟨by simp only [List.length_cons]; omega, by simpa using ⟨hf, hrest⟩⟩
  | retval v C below hrb hroom =>
    subst hrb
    obtain ⟨hC, hbelow⟩ := List.forall_mem_cons.1 hrest
    simp only [List.length_cons] at hlen
    refine ⟨by simp only [List.length_cons]; omega, List.forall_mem_cons.2 ⟨?_, hbelow⟩⟩
    simp only [List.length_cons]
    omega

/-- A frame beneath the new top was beneath the old one, or is the caller CALL leaves there. -/
theorem Frames.beneath (h : Frames s f rest i cs) {g : Frame} (hg : g ∈ cs.tail) :
    g ∈ rest ∨ ∃ addr, i = .call addr ∧ g.ip = f.ip + 1 := by
  cases h with
  | top => exact .inl hg
  | drop => exact .inl (List.mem_of_mem_tail hg)
  | call addr =>
    rcases List.mem_cons.1 hg with rfl | hg
    · exact .inr ⟨addr, rfl, rfl⟩
    · exact .inl hg
  | retval v C below hrb => exact .inl (hrb ▸ List.mem_cons_of_mem C hg)

end

/-- The index after one inside the program is not 0: PROG_LEN is at most 65535. -/
theorem succ_ne_zero_of_lt {a b : Idx} (h : a < b) : a + 1 ≠ 0 := by
  bv_omega

/-- A completed CALL leaves its own successor as return address (44_call R173); the other frames
beneath the top keep theirs. -/
theorem Completes.returns {s t : State} {i : Instr} (h : Completes i s t) (hi : CurrentInstr s i)
    (hr : ReturnInv s) : ReturnInv t := by
  cases h with
  | intro f rest u cs hcs hu hf =>
    obtain ⟨-, himem, hlen, -⟩ := hu.program
    obtain ⟨f', rest', hcs', hfetch⟩ := hi
    obtain ⟨rfl, rfl⟩ : f = f' ∧ rest = rest' := by simpa [hcs] using hcs'
    intro g hg
    rw [fetchWord_congr (t := u.setCs cs) himem hlen]
    rcases hf.beneath hg with hg | ⟨addr, rfl, hip⟩
    · exact hr g (by simpa [hcs] using hg)
    · have hlt : f.ip < s.progLen := by
        by_contra hge
        simp [fetchWord, hge] at hfetch
      rw [hip, BitVec.add_sub_cancel]
      exact ⟨succ_ne_zero_of_lt hlt, addr, hfetch⟩

theorem Completes.engineInv {s t : State} {i : Instr} (h : Completes i s t)
    (hi : CurrentInstr s i) (hinv : EngineInv s) (ha : Active s) : EngineInv t := by
  have hreturns := h.returns hi hinv.returns
  cases h with
  | intro f rest u cs hcs hu hf =>
    obtain ⟨hcfg, himem, hlen, -⟩ := hu.program
    refine ⟨hu.memory hinv.memory, ?_, hu.status hinv.status ha, hu.outLog hinv.outLog ha, hreturns,
      fun he => absurd he (hu.not_idle ha), fun _ j hj => ?_⟩
    · simp only [CapacityInv, State.setCs_cfg, State.setCs_cs, hcfg]
      exact ⟨hinv.capacity.1, hf.capacity hcs hinv.capacity⟩
    · simp only [State.setCs_progLen, hlen] at hj
      simpa only [imemWord, State.setCs_imem, himem] using hinv.loaded ha.not_idle j hj

/-- A step of the engine in RUNNING or in PAUSED keeps the invariant. -/
theorem engineInv_engineStep {s t : State} (hinv : EngineInv s) (ha : Active s)
    (h : engineStep s = .next t) : EngineInv t := by
  rcases engineStep_cases h with ⟨c, ip, hc, rfl⟩ | ⟨i, hi, -, hC⟩
  · exact hinv.raise ha hc
  · exact hC.engineInv hi hinv ha

/-- Settles O45: a step is a step of the engine in RUNNING, and that enters a fault or completes the
current instruction; either keeps each clause of the invariant. -/
theorem invKeptByStep : Obligations.InvKeptByStep := by
  intro s t hinv h
  obtain ⟨hr, hs⟩ := step_next h
  exact engineInv_engineStep hinv (.inl hr) hs

theorem engineInv_resetWith {c : Config} (n : Nat) (hc : c.wellFormed = true) :
    EngineInv (State.resetWith c n) where
  memory := Memory.wf_resetWith c n
  capacity := ⟨of_decide_eq_true hc, Nat.zero_le _, fun _ hf => absurd hf List.not_mem_nil⟩
  status := by simp [StatusInv, State.resetWith]
  outLog := by simp [OutLogInv, State.resetWith]
  returns := fun _ hf => absurd hf List.not_mem_nil
  idle := fun _ => ⟨rfl, rfl, rfl⟩
  loaded := fun he => absurd rfl he

/-- Settles O44: reset empties everything the invariant speaks of; the reference configuration has
room for a frame. -/
theorem invAtReset : Obligations.InvAtReset :=
  ⟨engineInv_resetWith 0 rfl, fun _ n hc => engineInv_resetWith n hc⟩

end Sys2Proof.Machine
end

section
/-! PROOFS. The frames of G and CS (10_state R33, R34, R36), HALTED (R38) and the reset table
(R46). -/

namespace Sys2Proof.Machine

/-! ### Which instruction and which event changes G -/

theorem globalRead_congr {s t : State} (h : t.g = s.g) : globalRead t = globalRead s := by
  funext a
  simp only [globalRead, h]

/-- A completed instruction that changes G[a] is STORE `a`, and it leaves ENGINE_STATE. -/
theorem Completes.store_of_globalRead_ne {i : Instr} {s t : State} {a : Idx}
    (h : Completes i s t) (hne : globalRead t a ≠ globalRead s a) :
    i = .store a ∧ t.estate = s.estate := by
  cases h with
  | intro f rest u cs hcs hu hf =>
    cases hu with
    | store b v =>
      have hab : a = b := by
        by_contra hab
        exact hne ((globalRead_globalWrite s b a v).trans (if_neg hab))
      exact ⟨by rw [hab], rfl⟩
    | _ => exact absurd rfl hne

theorem globalRead_of_exec {i : Instr} {s t : State} {a : Idx} (h : exec i s = .next t)
    (hi : i ≠ .store a) : globalRead t a = globalRead s a := by
  rcases exec_next h with ⟨c, ip, -, rfl⟩ | hC
  · rfl
  · by_contra hne
    exact hi (hC.store_of_globalRead_ne hne).1

theorem stores_of_globalRead_ne {e : Event} {s t : State} {a : Idx} (he : e ≠ .host .reset)
    (h : event e s = .next t) (hne : globalRead t a ≠ globalRead s a) : Stores e a s t := by
  rcases event_cases h with ⟨hT, hs⟩ | ⟨hreset, -⟩ | hH
  · rcases engineStep_cases hs with ⟨c, ip, -, rfl⟩ | ⟨i, hi, hx, hC⟩
    · exact absurd rfl hne
    · obtain ⟨rfl, hest⟩ := hC.store_of_globalRead_ne hne
      exact ⟨hT, hi, hx, hest ▸ hT.active.not_faulted⟩
  · exact absurd hreset he
  · exact absurd (congrFun (globalRead_congr hH.globals) a) hne

/-- No host act but reset and a write of CTRL touches G or a frame (70 R237). -/
theorem hostAct_globals_frames {act : HostAction} {s t : State} {r : HostReply}
    (hctrl : ∀ w, act ≠ .writeReg 0x00 w) (hreset : act ≠ .reset)
    (h : hostAct act s = .next (r, t)) : t.g = s.g ∧ t.cs = s.cs := by
  cases hostAct_effect h with
  | reset => exact absurd rfl hreset
  | nothing _ _ _ _ ht => exact ⟨ht.globals, ht.frames⟩
  | imem | entry | progLen => exact ⟨rfl, rfl⟩
  | start w | run w | step w => exact absurd rfl (hctrl w)

/-! ### Which instruction reads G

Two runs of one body on states that differ in G alone take the same branches. -/

/-- Two answers of an instruction's body: the same cause, or states related by `R`. -/
inductive Agree (R : State → State → Prop) :
    Except FaultCause State → Except FaultCause State → Prop where
  | error (c : FaultCause) : Agree R (.error c) (.error c)
  | ok {t t' : State} (h : R t t') : Agree R (.ok t) (.ok t')

/-- Two bodies that begin alike agree where they agree after that beginning. -/
theorem Agree.bind {R : State → State → Prop} {α : Type} (x : Except FaultCause α)
    {k k' : α → Except FaultCause State} (h : ∀ a, Agree R (k a) (k' a)) :
    Agree R (x >>= k) (x >>= k') := by
  cases x with
  | error c => exact .error c
  | ok a => exact h a

/-- Bodies that agree answer related states, where fault entry does. -/
theorem withFrame_agree {R : State → State → Prop} {s s' t : State}
    {body body' : Frame → List Frame → Except FaultCause State} (hcs : s'.cs = s.cs)
    (hraise : ∀ c ip, R (s.raise c ip) (s'.raise c ip))
    (hbody : ∀ f rest, Agree R (body f rest) (body' f rest)) (h : withFrame s body = .next t) :
    ∃ t', withFrame s' body' = .next t' ∧ R t t' := by
  unfold withFrame at h ⊢
  rw [hcs]
  cases hs : s.cs with
  | nil =>
    simp only [hs] at h ⊢
    cases h
    exact ⟨_, rfl, hraise _ _⟩
  | cons f rest =>
    simp only [hs] at h ⊢
    have hb := hbody f rest
    revert h hb
    generalize body f rest = x, body' f rest = x'
    rintro h (c | hR) <;> cases h
    · exact ⟨_, rfl, hraise _ _⟩
    · exact ⟨_, rfl, hR⟩

/-- The relation of a state to itself with the table `g` in G's place. -/
def WithGlobals (g : List (Nat × BitVec 16)) (t t' : State) : Prop := t' = { t with g := g }

/-- The relation of two states that differ in G alone. -/
def SameButGlobals (t t' : State) : Prop := ∃ g, WithGlobals g t t'

section
variable {s t : State} {g : List (Nat × BitVec 16)}

/-- A body that ends alike whatever G holds answers alike. -/
theorem withFrame_withGlobals {body body' : Frame → List Frame → Except FaultCause State}
    (h : withFrame s body = .next t)
    (hbody : ∀ f rest, Agree (WithGlobals g) (body f rest) (body' f rest)) :
    ∃ t', withFrame { s with g := g } body' = .next t' ∧ WithGlobals g t t' :=
  withFrame_agree (s := s) rfl (fun _ _ => rfl) hbody h

theorem aluBinary_withGlobals {op : Value → Value → Except FaultCause Value}
    (h : aluBinary s op = .next t) :
    ∃ t', aluBinary { s with g := g } op = .next t' ∧ WithGlobals g t t' :=
  withFrame_withGlobals h fun _ _ => .bind _ fun _ => .bind _ fun (_, _) => .bind _ fun (_, _) =>
    .bind _ fun _ => .bind _ fun _ => .ok rfl

/-- An instruction other than LOAD and STORE answers alike whatever G holds (20_memory R62). -/
theorem exec_withGlobals {i : Instr} (hload : ∀ a, i ≠ .load a) (hstore : ∀ a, i ≠ .store a)
    (h : exec i s = .next t) :
    ∃ t', exec i { s with g := g } = .next t' ∧ WithGlobals g t t' := by
  cases i with
  | add | sub | mul | div | mod | or | and | eq | gt | gte =>
    simp only [exec, execAdd, execSub, execMul, execDiv, execMod, execOr, execAnd, execEq, execGt,
      execGte] at h ⊢
    exact aluBinary_withGlobals h
  | load a => exact absurd rfl (hload a)
  | store a => exact absurd rfl (hstore a)
  | not =>
    exact withFrame_withGlobals h fun _ _ =>
      .bind _ fun _ => .bind _ fun (_, _) => .bind _ fun _ => .ok rfl
  | jmp | ret | halt =>
    simp only [exec, execJmp, execRet, execHalt] at h ⊢
    exact withFrame_withGlobals h fun _ _ => .ok rfl
  | jmpif =>
    refine withFrame_withGlobals h fun _ _ => .bind _ fun (a, _) => ?_
    dsimp only
    cases isNonzero a <;> exact .ok rfl
  | pop | out => exact withFrame_withGlobals h fun _ _ => .bind _ fun (_, _) => .ok rfl
  | push | call => exact withFrame_withGlobals h fun _ _ => .bind _ fun _ => .ok rfl
  | retval =>
    exact withFrame_withGlobals h fun _ _ =>
      .bind _ fun (_, _) => .bind _ fun (_, _) => .bind _ fun _ => .ok rfl

/-- STORE reads nothing of G: only the table it writes differs. -/
theorem execStore_sameButGlobals {addr : Idx} (h : exec (.store addr) s = .next t) :
    ∃ t', exec (.store addr) { s with g := g } = .next t' ∧ SameButGlobals t t' :=
  withFrame_agree (s := s) rfl (fun _ _ => ⟨g, rfl⟩)
    (fun _ _ => .bind _ fun (_, _) => .ok ⟨_, rfl⟩) h

end

/-- Settles O41: of an instruction's effects only STORE's writes G, of the bodies only LOAD's reads
it, and of the events other than reset only a step changes it. -/
theorem globalsFrame : Obligations.GlobalsFrame := by
  refine ⟨fun _ _ _ h _ => globalRead_of_exec h, fun i s t g hload hstore h => ?_,
    fun addr s t g h => ?_, fun _ _ _ _ => stores_of_globalRead_ne,
    fun _ _ _ _ => hostAct_globals_frames⟩
  · obtain ⟨_, hx, rfl⟩ := exec_withGlobals (g := g) hload hstore h
    exact hx
  · obtain ⟨_, hx, g', rfl⟩ := execStore_sameButGlobals (g := g) h
    exact ⟨g', hx⟩

/-! ### The frames beneath, HALTED and reset -/

/-- The frames beneath stay at the bottom, but for the value RETVAL pushes on the first of them. -/
theorem Frames.rest_suffix {s : State} {f : Frame} {rest cs : List Frame} {i : Instr}
    (h : Frames s f rest i cs) :
    rest <:+ cs ∨
      i = .retval ∧ ∃ C below v, rest = C :: below ∧ cs = ⟨v :: C.stack, C.ip⟩ :: below := by
  cases h with
  | top => exact .inl (List.suffix_cons _ _)
  | drop => exact .inl (List.suffix_refl _)
  | call => exact .inl ((List.suffix_cons _ _).trans (List.suffix_cons _ _))
  | retval v C below hrest => exact .inr ⟨rfl, C, below, v, hrest, rfl⟩

/-- Settles O42: fault entry leaves CS, and a completed instruction leaves `rest` as
`Frames.rest_suffix` says. -/
theorem callStackFrame : Obligations.CallStackFrame := by
  intro i s t f rest hcs h
  rcases exec_next h with ⟨c, ip, -, rfl⟩ | hC
  · exact .inl (hcs ▸ List.suffix_cons f rest)
  · cases hC with
    | intro f' rest' u cs hcs' _ hf =>
      obtain ⟨rfl, rfl⟩ : f = f' ∧ rest = rest' := by simpa [hcs] using hcs'
      exact hf.rest_suffix

/-- A completed instruction leaves HALTED or is HALT and sets it (10_state R38). -/
theorem Completes.halted {i : Instr} {s t : State} (h : Completes i s t) :
    t.halted = s.halted ∨ ∃ code, i = .halt code ∧ t.halted = true := by
  cases h with
  | intro f rest u cs _ hu _ =>
    rcases hu.halting with ⟨hh, -⟩ | ⟨code, hi, hh, -⟩
    · exact .inl hh
    · exact .inr ⟨code, hi, hh⟩

/-- An event is reset, which clears HALTED, or it leaves HALTED, or it is a step of a current HALT,
which sets it. -/
theorem event_halted {e : Event} {s t : State} (h : event e s = .next t) :
    e = .host .reset ∧ t.halted = false ∨ t.halted = s.halted ∨
      ∃ code, CurrentInstr s (.halt code) ∧ exec (.halt code) s = .next t ∧ t.halted = true := by
  rcases event_cases h with ⟨-, hs⟩ | ⟨he, rfl⟩ | hH
  · rcases engineStep_cases hs with ⟨c, ip, -, rfl⟩ | ⟨i, hi, hx, hC⟩
    · exact .inr (.inl rfl)
    · rcases hC.halted with hh | ⟨code, rfl, hh⟩
      · exact .inr (.inl hh)
      · exact .inr (.inr ⟨code, hi, hx, hh⟩)
  · exact .inl ⟨he, rfl⟩
  · exact .inr (.inl hH.halted)

/-- Settles O49: `event_halted` read in both directions; in a halted state ENGINE_STATE is HALTED,
in which no step is taken. -/
theorem haltedSetOnlyByHalt : Obligations.HaltedSetOnlyByHalt := by
  refine ⟨rfl, fun e s t h => ?_, fun s hs hh t ht => ?_⟩
  · rcases event_halted h with ⟨he, ht⟩ | ht | ⟨code, ⟨f, rest, hcs, hfetch⟩, hx, ht⟩
    · exact ⟨fun _ _ => he, fun _ htrue => by simp [ht] at htrue⟩
    · exact ⟨fun h1 h0 => by simp [ht, h1] at h0, fun h0 h1 => by simp [ht, h0] at h1⟩
    · exact ⟨fun _ h0 => by simp [ht] at h0, fun _ _ => ⟨f, rest, code, hcs, hfetch, hx⟩⟩
  · have hrunning := (step_next ht).1
    rw [hs.1.1 hh] at hrunning
    cases hrunning

/-- Settles O51: both states are `State.resetWith` of some configuration, which lists no cell. -/
theorem resetState : Obligations.ResetState := by
  intro s
  refine ⟨s.hostReset, rfl, fun u hu => ?_⟩
  obtain ⟨c, n, rfl⟩ : ∃ c n, u = State.resetWith c n := by
    simp only [List.mem_cons, List.not_mem_nil, or_false] at hu
    rcases hu with rfl | rfl
    · exact ⟨_, _, rfl⟩
    · exact ⟨_, _, rfl⟩
  exact ⟨rfl, fun _ => rfl, rfl, rfl, rfl, rfl, rfl, rfl, rfl, rfl, rfl, fun _ => rfl⟩

end Sys2Proof.Machine
end

section
/-! PROOFS. The byte order of words and values (20_memory R63) and the program's constancy from
START to the end of the run (R73). -/

namespace Sys2Proof

/-- A byte of a bit vector is the number's digit at that place. -/
theorem byte_eq_iff_toNat {n : Nat} (w : BitVec n) (k : Nat) (b : BitVec 8) :
    w.extractLsb' k 8 = b ↔ w.toNat / 2 ^ k % 256 = b.toNat := by
  rw [← BitVec.toNat_inj, BitVec.extractLsb'_toNat, Nat.shiftRight_eq_div_pow]

theorem bytesOfWord_eq_iff_toNat (w : IWord) (b0 b1 b2 b3 : BitVec 8) :
    bytesOfWord w = [b0, b1, b2, b3] ↔
      w.toNat = b0.toNat + 256 * b1.toNat + 65536 * b2.toNat + 16777216 * b3.toNat := by
  have hw := w.isLt
  have h0 := b0.isLt
  have h1 := b1.isLt
  have h2 := b2.isLt
  have h3 := b3.isLt
  simp only [bytesOfWord, List.cons.injEq, and_true, byte_eq_iff_toNat]
  omega

theorem bytesOfValue_eq_iff_toNat (v : BitVec 16) (b0 b1 : BitVec 8) :
    bytesOfValue v = [b0, b1] ↔ v.toNat = b0.toNat + 256 * b1.toNat := by
  have hv := v.isLt
  have h0 := b0.isLt
  have h1 := b1.isLt
  simp only [bytesOfValue, List.cons.injEq, and_true, byte_eq_iff_toNat]
  omega

theorem decodeBytes_bytesOfWord_append (w : IWord) (rest : List (BitVec 8)) :
    decodeBytes (bytesOfWord w ++ rest) = (decode w).map fun i => (i, rest) := by
  simp only [bytesOfWord, List.cons_append, List.nil_append, decodeBytes, wordOfBytes_bytes]
  cases decode w <;> rfl

end Sys2Proof

namespace Sys2Proof.Machine

/-- Settles O5: the bytes are the digits of the number to base 256, and the four bytes of a word
make that word again. -/
theorem bytesAreLittleEndian : Obligations.BytesAreLittleEndian :=
  ⟨rfl, bytesOfWord_eq_iff_toNat, bytesOfValue_eq_iff_toNat, decodeBytes_bytesOfWord_append⟩

/-- The loaded program is the same in both states: IMEM, PROG_LEN and ENTRY (70 R232). -/
def SameProgram (s t : State) : Prop :=
  t.imem = s.imem ∧ t.progLen = s.progLen ∧ t.entry = s.entry

theorem OnlyDraws.sameProgram {s t : State} (h : OnlyDraws s t) : SameProgram s t := by
  rw [h]
  exact ⟨rfl, rfl, rfl⟩

theorem sameProgram_raise (s : State) (c : FaultCause) (ip : Option Idx) :
    SameProgram s (s.raise c ip) := ⟨rfl, rfl, rfl⟩

theorem Completes.sameProgram {i : Instr} {s t : State} (h : Completes i s t) :
    SameProgram s t := by
  cases h with
  | intro _ _ _ _ _ hu _ => exact hu.program.2

theorem exec_sameProgram {i : Instr} {s t : State} (h : exec i s = .next t) : SameProgram s t := by
  rcases exec_next h with ⟨c, ip, -, rfl⟩ | hC
  · exact sameProgram_raise s c ip
  · exact hC.sameProgram

theorem engineStep_sameProgram {s t : State} (h : engineStep s = .next t) : SameProgram s t := by
  rcases engineStep_cases h with ⟨c, ip, -, rfl⟩ | ⟨_, -, -, hC⟩
  · exact sameProgram_raise s c ip
  · exact hC.sameProgram

/-- The host writes the program in IDLE alone (70 R232, R239); START, RUN and STEP write none. -/
theorem HostEffect.sameProgram {a : HostAction} {s t : State} (h : HostEffect a s t)
    (hidle : s.estate ≠ .idle) (hreset : a ≠ .reset) : SameProgram s t := by
  cases h with
  | reset => exact absurd rfl hreset
  | nothing _ _ _ _ ht => exact ht.sameProgram
  | imem _ _ _ h | entry _ _ h | progLen _ _ h => exact absurd h hidle
  | start | run => exact ⟨rfl, rfl, rfl⟩
  | step _ _ _ _ _ ht => exact engineStep_sameProgram ht

/-- Settles O43: a step keeps the program whether it faults or completes, and of the host's acts only
reset and the load in IDLE write it. -/
theorem programConstantWhileStarted : Obligations.ProgramConstantWhileStarted := by
  refine ⟨fun i s t h => (exec_sameProgram h).1, fun e s t hidle hreset h => ?_⟩
  cases e with
  | engine => exact engineStep_sameProgram (step_next h).2
  | host a =>
    obtain ⟨r, ha⟩ := event_host h
    exact (hostAct_effect ha).sameProgram hidle fun hr => hreset (congrArg Event.host hr)

end Sys2Proof.Machine
end

section
/-! PROOFS. The instruction word (30_encoding R80 to R87): which words decode, to which instruction,
and which are illegal. The assembler's words on operands that are not labels (R88). -/

namespace Sys2Proof

/-! ### Decode and encode are inverse -/

/-- Each instruction's opcode selects its shape, and class none carries the immediate 0. -/
theorem decodeOpcode_opcodeOf (i : Instr) :
    (decodeOpcode (opcodeOf i) = some (.inl i) ∧ immOf i = 0) ∨
      ∃ mk, decodeOpcode (opcodeOf i) = some (.inr mk) ∧ mk (immOf i) = i := by
  cases i with
  | jmp | jmpif | push | store | load | call | halt => exact .inr ⟨_, rfl, rfl⟩
  | _ => exact .inl ⟨rfl, rfl⟩

theorem decode_of_inl {w : IWord} {i : Instr} (hop : decodeOpcode (opField w) = some (.inl i))
    (hrsv : rsvField w = 0) (himm : immField w = 0) : decode w = .ok i := by
  simp [decode, hop, hrsv, himm]

theorem decode_of_inr {w : IWord} {mk : BitVec 16 → Instr}
    (hop : decodeOpcode (opField w) = some (.inr mk)) (hrsv : rsvField w = 0) :
    decode w = .ok (mk (immField w)) := by
  simp [decode, hop, hrsv]

@[simp] theorem decode_encode (i : Instr) : decode (encode i) = .ok i := by
  obtain ⟨hop, hrsv, himm⟩ := Laws.Encoding.fields_encode i
  rcases decodeOpcode_opcodeOf i with ⟨hshape, hzero⟩ | ⟨mk, hshape, hmk⟩
  · exact decode_of_inl (hop ▸ hshape) hrsv (himm.trans hzero)
  · rw [decode_of_inr (hop ▸ hshape) hrsv, himm, hmk]

/-- An instruction has one word, and only that word decodes to it (30_encoding R84). -/
theorem decode_eq_ok_iff {w : IWord} {i : Instr} : decode w = .ok i ↔ w = encode i :=
  ⟨fun h => (Machine.encode_of_decode h).symm, fun h => h ▸ decode_encode i⟩

/-- A row of the opcode map with an operand: its opcode and the reserved 0x00 are the word's high
half, the operand its low half. -/
theorem encode_eq_append {i : Instr} {high : BitVec 16} (op : BitVec 8) (hop : opcodeOf i = op)
    (hhigh : op ++ (0x00 : BitVec 8) = high) : encode i = high ++ immOf i := by
  rw [encode, hop, ← hhigh]

/-! ### The illegal words -/

/-- The opcodes of class none (30_encoding R84). -/
def classNoneOpcodes : List (BitVec 8) :=
  [0x01, 0x02, 0x03, 0x04, 0x05, 0x06, 0x07, 0x08, 0x09, 0x0A, 0x0B, 0x0E, 0x13, 0x14, 0x15]

theorem decodeOpcode_eq_none_iff (op : BitVec 8) :
    decodeOpcode op = none ↔ op = 0x00 ∨ 0x17 ≤ op := by
  rw [← BitVec.toNat_inj, BitVec.le_def]
  unfold decodeOpcode
  split
  case h_23 => grind
  all_goals simp [*]

theorem decodeOpcode_eq_inl_iff (op : BitVec 8) :
    (∃ i, decodeOpcode op = some (.inl i)) ↔ op ∈ classNoneOpcodes := by
  constructor
  · rintro ⟨i, h⟩
    obtain ⟨rfl, -⟩ := Machine.opcodeOf_of_inl h
    cases i with
    | jmp | jmpif | push | store | load | call | halt => cases h
    | _ => decide
  · intro h
    fin_cases h <;> exact ⟨_, rfl⟩

/-- The checks of 30_encoding R85 that a word can fail. -/
theorem decode_error_iff_checks (w : IWord) :
    (∃ e, decode w = .error e) ↔
      decodeOpcode (opField w) = none ∨ rsvField w ≠ 0 ∨
        (∃ i, decodeOpcode (opField w) = some (.inl i)) ∧ immField w ≠ 0 := by
  by_cases hrsv : rsvField w = 0#8
  · cases hop : decodeOpcode (opField w) with
    | none => simp [decode, hop]
    | some shape =>
      cases shape with
      | inl i => by_cases himm : immField w = 0#16 <;> simp [decode, hop, hrsv, himm]
      | inr mk => simp [decode, hop, hrsv]
  · cases hop : decodeOpcode (opField w) <;> simp [decode, hop, hrsv]

/-- The illegal words by their fields (30_encoding R86). -/
theorem decode_error_iff (w : IWord) :
    (∃ e, decode w = .error e) ↔
      opField w = 0x00 ∨ 0x17 ≤ opField w ∨ rsvField w ≠ 0 ∨
        (opField w ∈ classNoneOpcodes ∧ immField w ≠ 0) := by
  rw [decode_error_iff_checks, decodeOpcode_eq_none_iff, decodeOpcode_eq_inl_iff, or_assoc]

end Sys2Proof

namespace Sys2Proof.Machine

/-- Settles O1: the fields of an instruction's word, and the two round trips. -/
theorem decodeInvertsEncode : Obligations.DecodeInvertsEncode := by
  refine ⟨fun i => ?_, fun _ _ => encode_of_decode⟩
  obtain ⟨hop, hrsv, himm⟩ := Laws.Encoding.fields_encode i
  exact ⟨hop, hrsv, himm, decode_encode i⟩

/-- Settles O2: each row is `decode_eq_ok_iff` with the instruction's word written out. -/
theorem opcodeMapExact : Obligations.OpcodeMapExact := by
  intro w
  have row {i : Instr} {p : IWord} (hp : encode i = p) : decode w = .ok i ↔ w = p :=
    hp ▸ decode_eq_ok_iff
  exact ⟨row rfl, row rfl, row rfl, row rfl, row rfl, row rfl, row rfl, row rfl, row rfl, row rfl,
    row rfl, fun _ => row (encode_eq_append 0x0C rfl rfl),
    fun _ => row (encode_eq_append 0x0D rfl rfl), row rfl,
    fun _ => row (encode_eq_append 0x0F rfl rfl), fun _ => row (encode_eq_append 0x10 rfl rfl),
    fun _ => row (encode_eq_append 0x11 rfl rfl), fun _ => row (encode_eq_append 0x12 rfl rfl),
    row rfl, row rfl, row rfl, fun _ => row (encode_eq_append 0x16 rfl rfl)⟩

/-- Settles O3: the decoder run on the fixed words. -/
theorem sampleWordsDecode : Obligations.SampleWordsDecode := by
  refine ⟨rfl, rfl, rfl, rfl, rfl, rfl, rfl, rfl, rfl, rfl, rfl, rfl, ?_⟩
  simp only [List.forall_mem_cons]
  exact ⟨⟨_, rfl⟩, ⟨_, rfl⟩, ⟨_, rfl⟩, ⟨_, rfl⟩, ⟨_, rfl⟩, ⟨_, rfl⟩, ⟨_, rfl⟩, nofun⟩

/-- Settles O4: the illegal words by their fields; a running step that fetches one ends in the
decoder's error branch. -/
theorem illegalWordsFault : Obligations.IllegalWordsFault := by
  refine ⟨decode_error_iff, fun s f rest w e hrun hcs hlt hw hd => ?_⟩
  rw [step_running hrun, engineStep_fetched hcs hlt hw, hd]

/-! ### The assembler on operands that are not labels -/

section
variable {table : List (List Char × Nat)} {line : Nat} {i : SourceInstr}

theorem resolveLabel_of_ne_label (h : ∀ name, i.operand ≠ some (.label name)) :
    resolveLabel table line i = .ok i := by
  unfold resolveLabel
  split
  · exact absurd ‹_› (h _)
  · rfl

theorem assembleInstr_of_error {e : SourceError} (h : ∀ name, i.operand ≠ some (.label name))
    (he : i.error? = some e) : assembleInstr table line i = .error (.badOperand line e) := by
  simp [assembleInstr, resolveLabel_of_ne_label h, he]

theorem assembleInstr_of_wellFormed (h : ∀ name, i.operand ≠ some (.label name))
    (hwf : i.wellFormed = true) :
    assembleInstr table line i = .ok (encode (instrOf (operandPattern i.operand) i.mnemonic)) := by
  have he : i.error? = none := Option.isNone_iff_eq_none.mp hwf
  simp [assembleInstr, resolveLabel_of_ne_label h, he]

/-- The operand of a well-formed instruction is in range for its mnemonic (30_encoding R88). -/
theorem inRange_of_wellFormed {o : SourceOperand} (hwf : i.wellFormed = true)
    (ho : i.operand = some o) : o.inRange i.mnemonic.operandClass = true := by
  have he : i.error? = none := Option.isNone_iff_eq_none.mp hwf
  simp only [SourceInstr.error?, ho] at he
  cases hc : i.mnemonic.operandClass with
  | none => simp [hc] at he
  | lit | addr => simpa [hc] using he

end

/-- A lit decimal in range is the pattern's signed value (30_encoding R82). -/
theorem toInt_operandPattern_decimal {negative : Bool} {n : Nat}
    (h : (SourceOperand.decimal negative n).inRange .lit = true) :
    (operandPattern (some (.decimal negative n))).toInt = if negative then -(n : Int) else n := by
  cases negative with
  | true =>
    have hn : n ≤ 32768 := of_decide_eq_true h
    exact BitVec.toInt_ofInt_eq_self (by decide) (by grind) (by grind)
  | false =>
    have hn : n ≤ 32767 := of_decide_eq_true h
    exact BitVec.toInt_ofInt_eq_self (by decide) (by grind) (by grind)

/-- An addr decimal in range is the pattern's unsigned value (30_encoding R82). -/
theorem toNat_operandPattern_decimal {n : Nat}
    (h : (SourceOperand.decimal false n).inRange .addr = true) :
    (operandPattern (some (.decimal false n))).toNat = n := by
  have hn : n ≤ 65535 := of_decide_eq_true h
  simpa [operandPattern] using Nat.lt_succ_of_le hn

/-- A hexadecimal in range, of either class, is the pattern. -/
theorem toNat_operandPattern_hex {c : OperandClass} {n : Nat}
    (h : (SourceOperand.hex n).inRange c = true) : (operandPattern (some (.hex n))).toNat = n := by
  have hn : n ≤ 0xFFFF := by
    cases c with
    | none => cases h
    | lit | addr => exact of_decide_eq_true h
  simpa [operandPattern] using Nat.lt_succ_of_le hn

/-- Settles O6: the word is the encoding of the mnemonic's instruction with the operand's pattern,
which is the operand's value because the operand is in range. -/
theorem assemblerAcceptsExactlyWellFormed : Obligations.AssemblerAcceptsExactlyWellFormed := by
  intro table line i hlabel
  refine ⟨fun e he => assembleInstr_of_error hlabel he, fun hwf => ?_⟩
  refine ⟨_, operandPattern i.operand, assembleInstr_of_wellFormed hlabel hwf, decode_encode _,
    fun negative n ho hlit => ?_, fun n ho haddr => ?_, fun n ho => ?_⟩
  · exact ho ▸ toInt_operandPattern_decimal (hlit ▸ inRange_of_wellFormed hwf ho)
  · exact ho ▸ toNat_operandPattern_decimal (haddr ▸ inRange_of_wellFormed hwf ho)
  · exact ho ▸ toNat_operandPattern_hex (inRange_of_wellFormed hwf ho)

end Sys2Proof.Machine
end

section
/-! PROOFS. Dispatch (40_dispatch R100 to R111): when the engine takes a step and what the step
runs, what every instruction answers and leaves unchanged, the default advance, and the run loop. -/

namespace Sys2Proof.Machine

/-! ### What a completed instruction leaves beside the call stack -/

section
variable {s u t : State} {f : Frame} {rest : List Frame} {i : Instr}

theorem Beside.faultRecord (h : Beside s i u) :
    u.faultCause = s.faultCause ∧ u.faultIp = s.faultIp ∧ u.faultIpv = s.faultIpv := by
  cases h <;> exact ⟨rfl, rfl, rfl⟩

theorem Beside.draws (h : Beside s i u) : u.draws = s.draws := by
  cases h <;> rfl

theorem Beside.outLog_of_ne (h : Beside s i u) (hout : i ≠ .out) (hhalt : ∀ code, i ≠ .halt code) :
    u.outLog = s.outLog := by
  cases h with
  | out v => exact absurd rfl hout
  | halt code => exact absurd rfl (hhalt code)
  | _ => rfl

theorem Beside.haltRecord_of_ne (h : Beside s i u) (hhalt : ∀ code, i ≠ .halt code) :
    u.halted = s.halted ∧ u.haltCode = s.haltCode := by
  cases h with
  | halt code => exact absurd rfl (hhalt code)
  | _ => exact ⟨rfl, rfl⟩

theorem Completes.faultRecord (h : Completes i s t) :
    t.faultCause = s.faultCause ∧ t.faultIp = s.faultIp ∧ t.faultIpv = s.faultIpv := by
  cases h with
  | intro _ _ _ _ _ hu _ => exact hu.faultRecord

/-- A completed instruction leaves ENGINE_STATE or is HALT and enters HALTED (45 R181). -/
theorem Completes.estate (h : Completes i s t) :
    t.estate = s.estate ∨ ∃ code, i = .halt code ∧ t.estate = .halted := by
  cases h with
  | intro _ _ _ _ _ hu _ =>
    rcases hu.halting with ⟨-, he⟩ | ⟨code, hi, -, he⟩
    · exact .inl he
    · exact .inr ⟨code, hi, he⟩

theorem Effect.estate_halt {code : Value} (h : Effect s f rest t (.halt code)) :
    t.estate = .halted := by
  obtain rfl := h
  rfl

/-- Within the capacities an instruction raises only the causes of its own (60_exceptions R201). -/
theorem Raises.mem_ownCauses {c : FaultCause} (h : Raises s f i c)
    (hcap : f.stack.length ≤ s.cfg.opstackCap) : c ∈ ownCauses s.cfg i := by
  rcases h with h | ⟨-, hover⟩
  · exact h
  · omega

end

/-- Settles O10: `exec_answers` splits the answer into the fault of an empty call stack, a raised
cause and the instruction's own effect, which completes. -/
theorem execAlwaysAnswersNext : Obligations.ExecAlwaysAnswersNext := by
  intro i s
  obtain ⟨t, hx, hA⟩ := exec_answers i s
  refine ⟨t, hx, fun hnil => ?_, fun f rest hcs ⟨_, _, hstack⟩ => ?_⟩
  · rcases hA with ⟨-, ht⟩ | ⟨f, rest, hcs, -⟩
    · exact ht
    · simp [hnil] at hcs
  · rcases hA with ⟨hnil, -⟩ | ⟨f', rest', hcs', hA⟩
    · simp [hnil] at hcs
    · obtain ⟨rfl, rfl⟩ : f = f' ∧ rest = rest' := by simpa [hcs] using hcs'
      rcases hA with ⟨k, hk, ht⟩ | hE
      · exact .inl ⟨k, hk.mem_ownCauses (hstack f (by simp [hcs])), ht⟩
      · have hC := hE.completes hcs
        obtain ⟨hcause, hip, hipv⟩ := hC.faultRecord
        refine .inr ⟨hcause, hip, hipv, fun hne => ?_, fun code hi => ?_⟩
        · exact hC.estate.resolve_right fun ⟨code, hi, _⟩ => hne code hi
        · exact Effect.estate_halt (hi ▸ hE)

/-- Settles O40: fault entry writes the fault record and ENGINE_STATE alone, and a completed
instruction beside the call stack only what its own case of `Beside` writes. -/
theorem execFrame : Obligations.ExecFrame := by
  intro i s t h
  rcases exec_next h with ⟨c, ip, -, rfl⟩ | hC
  · exact ⟨⟨rfl, rfl, rfl, rfl, rfl⟩, fun _ _ => rfl, fun _ => ⟨rfl, rfl⟩,
      .inr ⟨rfl, rfl, rfl, rfl, rfl, rfl⟩⟩
  · have hestate : t.estate = s.estate ∨ ∃ code, i = .halt code :=
      hC.estate.imp_right fun ⟨code, hi, _⟩ => ⟨code, hi⟩
    obtain ⟨hcause, hip, hipv⟩ := hC.faultRecord
    cases hC with
    | intro f rest u cs _ hu _ =>
      obtain ⟨hcfg, himem, hlen, hentry⟩ := hu.program
      exact ⟨⟨hcfg, himem, hlen, hentry, hu.draws⟩, hu.outLog_of_ne, hu.haltRecord_of_ne,
        .inl ⟨hcause, hip, hipv, hestate⟩⟩

/-! ### The default advance (40_dispatch R104) -/

/-- An instruction that answers without a fault entry has had its own effect. -/
theorem exec_effect {i : Instr} {s t : State} {f : Frame} {rest : List Frame}
    (hcs : s.cs = f :: rest) (h : exec i s = .next t) (ht : t.estate ≠ .faulted) :
    Effect s f rest t i := by
  obtain ⟨u, hu, hA⟩ := exec_answers i s
  obtain rfl : t = u := by simpa [h] using hu
  rcases hA with ⟨-, rfl⟩ | ⟨f', rest', hcs', ⟨c, -, rfl⟩ | hE⟩
  · exact absurd rfl ht
  · exact absurd rfl ht
  · obtain ⟨rfl, rfl⟩ : f = f' ∧ rest = rest' := by simpa [hcs] using hcs'
    exact hE

section
variable {s t : State} {f : Frame} {rest : List Frame}

theorem BinaryEffect.advances {op : Value → Value → Except FaultCause Value}
    (h : BinaryEffect op s f rest t) : ∃ S, t.cs = ⟨S, f.ip + 1⟩ :: rest := by
  obtain ⟨_, _, r, S, -, -, -, rfl⟩ := h
  exact ⟨r :: S, rfl⟩

/-- The instructions of R104's list replace the top frame by one that points at the next word. -/
theorem Effect.advances {i : Instr} (h : Effect s f rest t i) (hi : advancesByOne i = true) :
    ∃ S, t.cs = ⟨S, f.ip + 1⟩ :: rest := by
  cases i with
  | add | sub | mul | div | mod | or | and | eq | gt | gte => exact BinaryEffect.advances h
  | not =>
    obtain ⟨a, S, -, -, rfl⟩ := h
    exact ⟨_, rfl⟩
  | pop | store | out =>
    obtain ⟨_, S, -, rfl⟩ := h
    exact ⟨S, rfl⟩
  | push | load =>
    obtain ⟨-, rfl⟩ := h
    exact ⟨_, rfl⟩
  | jmp | jmpif | call | ret | retval | halt => cases hi

/-- JMPIF pops its condition and goes on at the next word or at the target (42_jump R151). -/
theorem Effect.jmpif_frames {addr : Idx} {a : Value} {S : List Value}
    (h : Effect s f rest t (.jmpif addr)) (hf : f.stack = a :: S) :
    t.cs = ⟨S, if a = 0 then f.ip + 1 else addr⟩ :: rest := by
  obtain ⟨a', S', hf', rfl⟩ := h
  obtain ⟨rfl, rfl⟩ : a = a' ∧ S = S' := by simpa [hf] using hf'
  rfl

end

/-- The advance of a pointer inside the program does not wrap: PROG_LEN is at most 65535. -/
theorem toNat_succ_of_lt {a b : Idx} (h : a < b) : (a + 1).toNat = a.toNat + 1 := by
  bv_omega

/-- Settles O13: the instruction has had its own effect, and that names the new top frame. -/
theorem defaultAdvanceNeverWraps : Obligations.DefaultAdvanceNeverWraps := by
  intro i s t f rest hcs _ hx ht
  have hE := exec_effect hcs hx ht
  refine ⟨fun hlt hi => ?_, fun addr hi => ?_⟩
  · have hnext : ∃ S, t.cs = ⟨S, f.ip + 1⟩ :: rest := by
      rcases hi with hi | ⟨addr, S, rfl, hf⟩
      · exact hE.advances hi
      · exact ⟨S, hE.jmpif_frames hf⟩
    obtain ⟨S, hS⟩ := hnext
    exact ⟨_, hS, rfl, toNat_succ_of_lt hlt⟩
  · rcases hi with rfl | ⟨a, S, rfl, hf, ha⟩
    · obtain rfl := hE
      exact ⟨_, rfl, rfl⟩
    · exact ⟨_, hE.jmpif_frames hf, if_neg ha⟩

/-! ### When the engine steps, and what the step runs -/

/-- Settles O7: both kinds of step are `engineStep`, which runs what the fetched word decodes to. -/
theorem stepRunsDecodedInstruction : Obligations.StepRunsDecodedInstruction := by
  intro s f rest w hcs hlt hw
  have hstep := engineStep_fetched hcs hlt hw
  refine ⟨fun i hd => ?_, fun e hd => ?_⟩ <;> rw [hd] at hstep <;>
    exact ⟨fun he => (step_running he).trans hstep, fun he => (hostStep_paused he).trans hstep⟩

/-- Settles O8: the event is `engineStep`, and its two first checks are made before the fetch. -/
theorem stepFaultsBeforeFetching : Obligations.StepFaultsBeforeFetching := by
  intro e s hT
  rw [event_takesStep hT]
  exact ⟨engineStep_empty, fun _ _ => engineStep_invalidIp⟩

/-- Settles O9: the branches of `step` and of `hostStep` for each ENGINE_STATE. -/
theorem stepOnlyInRunningOrByCommand : Obligations.StepOnlyInRunningOrByCommand := by
  intro s
  refine ⟨step_running, fun h => ⟨?_, hostStep_paused h⟩, fun h => ?_, fun h => ?_, fun h => ?_⟩ <;>
    simp [step, hostStep, h]

/-! ### Progress -/

theorem exec_isNext (i : Instr) (s : State) : ∃ t, exec i s = .next t := by
  obtain ⟨t, hx, -⟩ := exec_answers i s
  exact ⟨t, hx⟩

/-- With every word of the program written, a step of the engine is never refused (70 R240). -/
theorem engineStep_isNext {s : State} (hl : LoadedInv s) (ha : Active s) :
    ∃ t, engineStep s = .next t := by
  cases hcs : s.cs with
  | nil => exact ⟨_, engineStep_empty hcs⟩
  | cons f rest =>
    by_cases hip : s.progLen ≤ f.ip
    · exact ⟨_, engineStep_invalidIp hcs hip⟩
    · have hlt : f.ip < s.progLen := BitVec.not_le.1 hip
      obtain ⟨w, hw⟩ := hl ha.not_idle f.ip hlt
      rw [engineStep_fetched hcs hlt hw]
      cases decode w with
      | error e => exact ⟨_, rfl⟩
      | ok i => exact exec_isNext i s

/-- Settles O47: the invariant says that the program is written, so both kinds of step answer. -/
theorem runningEngineNeverStops : Obligations.RunningEngineNeverStops := by
  intro s hinv
  refine ⟨fun he => ?_, fun he => ?_⟩
  · rw [step_running he]
    exact engineStep_isNext hinv.loaded (.inl he)
  · rw [hostStep_paused he]
    exact engineStep_isNext hinv.loaded (.inr he)

/-! ### The run loop (40_dispatch R111) -/

/-- ENGINE_STATE is one of the two in which a run has ended (70 R242). -/
def Ended (s : State) : Prop := s.estate = .halted ∨ s.estate = .faulted

theorem engineStep_estate {s t : State} (h : engineStep s = .next t) :
    t.estate = s.estate ∨ Ended t := by
  rcases engineStep_cases h with ⟨c, ip, -, rfl⟩ | ⟨i, -, -, hC⟩
  · exact .inr (.inr rfl)
  · exact hC.estate.imp_right fun ⟨_, _, he⟩ => .inl he

section
variable {s t : State} {k : Nat}

theorem runLoop_of_ended (h : Ended s) (k : Nat) : runLoop k s = .ended s := by
  unfold runLoop
  rcases h with h | h <;> simp [h]

theorem runLoop_zero_of_running (h : s.estate = .running) : runLoop 0 s = .notEnded s := by
  simp [runLoop, h]

theorem runLoop_succ_of_next (h : s.estate = .running) (hs : engineStep s = .next t) (k : Nat) :
    runLoop (k + 1) s = runLoop k t := by
  simp [runLoop, h, hs]

/-- A run that is reported as ended had ended before its first step, or it took that step and the
rest of it ended. -/
theorem runLoop_eq_ended (h : runLoop k s = .ended t) :
    (Ended s ∧ t = s) ∨ ∃ j u, k = j + 1 ∧ s.estate = .running ∧ engineStep s = .next u ∧
      runLoop j u = .ended t := by
  unfold runLoop at h
  split at h
  · cases h
    exact .inl ⟨.inl ‹_›, rfl⟩
  · cases h
    exact .inl ⟨.inr ‹_›, rfl⟩
  · cases h
  · cases h
  · split at h
    · cases h
    · split at h
      · exact .inr ⟨_, _, rfl, ‹_›, ‹_›, h⟩
      · cases h
      · cases h

/-- An end is an end of the run, and no further fuel changes it (70 R242). -/
theorem runLoop_ended_stable (h : runLoop k s = .ended t) :
    Ended t ∧ ∀ j, runLoop (k + j) s = .ended t := by
  induction k generalizing s with
  | zero =>
    rcases runLoop_eq_ended h with ⟨hs, rfl⟩ | ⟨_, _, hk, -⟩
    · exact ⟨hs, fun j => runLoop_of_ended hs _⟩
    · cases hk
  | succ k ih =>
    rcases runLoop_eq_ended h with ⟨hs, rfl⟩ | ⟨_, u, ⟨⟩, he, hu, hrest⟩
    · exact ⟨hs, fun j => runLoop_of_ended hs _⟩
    · obtain ⟨ht, hmore⟩ := ih hrest
      refine ⟨ht, fun j => ?_⟩
      rw [Nat.add_right_comm, runLoop_succ_of_next he hu]
      exact hmore j

/-- From a running state within the invariant the loop is never stopped by name: each step answers,
keeps the invariant and leaves the engine RUNNING or ends the run. -/
theorem runLoop_of_engineInv (k : Nat) (hinv : EngineInv s) (he : s.estate = .running) :
    ∃ t, EngineInv t ∧ (runLoop k s = .ended t ∨ runLoop k s = .notEnded t ∧
      t.estate = .running) := by
  induction k generalizing s with
  | zero => exact ⟨s, hinv, .inr ⟨runLoop_zero_of_running he, he⟩⟩
  | succ k ih =>
    obtain ⟨u, hu⟩ := engineStep_isNext hinv.loaded (.inl he)
    have hinvu := engineInv_engineStep hinv (.inl he) hu
    rw [runLoop_succ_of_next he hu]
    rcases engineStep_estate hu with hrun | hend
    · exact ih hinvu (hrun.trans he)
    · exact ⟨u, hinvu, .inl (runLoop_of_ended hend k)⟩

end

/-- Settles O60: an end is stable, and the invariant carries the run from step to step; both by
induction on the fuel. -/
theorem runLoopReportsEndsTruly : Obligations.RunLoopReportsEndsTruly :=
  ⟨fun _ _ _ => runLoop_ended_stable, fun k _ => runLoop_of_engineInv k⟩

end Sys2Proof.Machine
end

section
/-! PROOFS. The ALU (41_alu R120 to R134). Each shape of opcode (R121's overflow law, the division
checks, a 0/1 result) has one rule per clause for a frame within its capacity; an obligation gives
the shape its opcode's operation. -/

namespace Sys2Proof.Machine

/-! ### The shapes on a frame within its capacity -/

section
variable {s : State} {f : Frame} {rest : List Frame} {a b : Value} {S : List Value}

theorem aluBinary_ok_of_le {op : Value → Value → Except FaultCause Value} {r : Value}
    (hcs : s.cs = f :: rest) (hcap : f.stack.length ≤ s.cfg.opstackCap)
    (hf : f.stack = a :: b :: S) (hr : op a b = .ok r) :
    aluBinary s op = .next (s.setCs (⟨r :: S, f.ip + 1⟩ :: rest)) := by
  obtain ⟨stack, ip⟩ := f
  obtain rfl := hf
  exact aluBinary_ok hcs hr (by simp only [List.length_cons] at hcap; omega)

theorem aluBinary_error_of_stack {op : Value → Value → Except FaultCause Value} {c : FaultCause}
    (hcs : s.cs = f :: rest) (hf : f.stack = a :: b :: S) (hr : op a b = .error c) :
    aluBinary s op = .next (faultRecord s c f.ip) := by
  obtain ⟨stack, ip⟩ := f
  obtain rfl := hf
  exact aluBinary_error hcs hr

theorem aluUnary_ok_of_le {op : Value → Value}
    (hcs : s.cs = f :: rest) (hcap : f.stack.length ≤ s.cfg.opstackCap) (hf : f.stack = a :: S) :
    aluUnary s op = .next (s.setCs (⟨op a :: S, f.ip + 1⟩ :: rest)) := by
  obtain ⟨stack, ip⟩ := f
  obtain rfl := hf
  exact aluUnary_ok hcs (by simp only [List.length_cons] at hcap; omega)

/-- R121 where the exact result `x a b` is kept or wrapped. -/
theorem aluBinary_res16_ok {x : Value → Value → Int}
    (hcs : s.cs = f :: rest) (hcap : f.stack.length ≤ s.cfg.opstackCap)
    (hf : f.stack = a :: b :: S)
    (h : s.cfg.overflowMode = .wrap ∨ (-32768 ≤ x a b ∧ x a b ≤ 32767)) :
    aluBinary s (fun a b => res16 s.cfg (x a b)) =
      .next (s.setCs (⟨wrap16 (x a b) :: S, f.ip + 1⟩ :: rest)) :=
  aluBinary_ok_of_le hcs hcap hf (h.elim (res16_wrap _) res16_inRange)

/-- R121 where the exact result `x a b` faults. -/
theorem aluBinary_res16_error {x : Value → Value → Int}
    (hcs : s.cs = f :: rest) (hf : f.stack = a :: b :: S) (hm : s.cfg.overflowMode = .fault)
    (h : x a b < -32768 ∨ 32767 < x a b) :
    aluBinary s (fun a b => res16 s.cfg (x a b)) = .next (faultRecord s .arithOverflow f.ip) :=
  aluBinary_error_of_stack hcs hf (res16_fault hm (by omega))

theorem aluBinary_divCheck_ok {x : Value → Value → Int}
    (hcs : s.cs = f :: rest) (hcap : f.stack.length ≤ s.cfg.opstackCap)
    (hf : f.stack = a :: b :: S) (hb : b ≠ 0) (h : ¬(a.toInt = -32768 ∧ b.toInt = -1)) :
    aluBinary s (fun a b => do divCheck a b; return wrap16 (x a b)) =
      .next (s.setCs (⟨wrap16 (x a b) :: S, f.ip + 1⟩ :: rest)) :=
  aluBinary_ok_of_le hcs hcap hf (by simp [divCheck_ok hb h])

theorem aluBinary_divCheck_error {x : Value → Value → Int} {c : FaultCause}
    (hcs : s.cs = f :: rest) (hf : f.stack = a :: b :: S) (h : divCheck a b = .error c) :
    aluBinary s (fun a b => do divCheck a b; return wrap16 (x a b)) =
      .next (faultRecord s c f.ip) :=
  aluBinary_error_of_stack hcs hf (by simp [h])

theorem boolValue_eq_ite {p : Bool} {P : Prop} [Decidable P] (h : p = true ↔ P) :
    boolValue p = if P then 1 else 0 := by
  simp only [boolValue, h]

theorem isNonzero_iff : isNonzero a = true ↔ a ≠ 0 := decide_eq_true_iff

/-- The 0/1 opcodes: the test `p` decides the condition `P`. -/
theorem aluBinary_boolValue {p : Value → Value → Bool} {P : Prop} [Decidable P]
    (hcs : s.cs = f :: rest) (hcap : f.stack.length ≤ s.cfg.opstackCap)
    (hf : f.stack = a :: b :: S) (h : p a b = true ↔ P) :
    aluBinary s (fun a b => return boolValue (p a b)) =
      .next (s.setCs (⟨(if P then 1 else 0) :: S, f.ip + 1⟩ :: rest)) :=
  aluBinary_ok_of_le hcs hcap hf (by simp [boolValue_eq_ite h])

end

/-! ### ADD, SUB and MUL (41_alu R122 to R124) -/

/-- Settles O14: ADD is R121's law on the exact sum. -/
theorem addEffect : Obligations.AddEffect := by
  refine ⟨rfl, fun s f rest hcs hcap => ?_⟩
  simp only [exec, execAdd]
  exact ⟨aluBinary_short hcs, fun a b S hf =>
    ⟨fun h => aluBinary_res16_ok hcs hcap hf h, fun hm h => aluBinary_res16_error hcs hf hm h⟩⟩

/-- Settles O15: SUB is R121's law on the exact difference, top minus next. -/
theorem subEffect : Obligations.SubEffect := by
  refine ⟨rfl, fun s f rest hcs hcap => ?_⟩
  simp only [exec, execSub]
  exact ⟨aluBinary_short hcs, fun a b S hf =>
    ⟨fun h => aluBinary_res16_ok hcs hcap hf h, fun hm h => aluBinary_res16_error hcs hf hm h⟩⟩

/-- Settles O16: MUL is R121's law on the exact product. -/
theorem mulEffect : Obligations.MulEffect := by
  refine ⟨rfl, fun s f rest hcs hcap => ?_⟩
  simp only [exec, execMul]
  exact ⟨aluBinary_short hcs, fun a b S hf =>
    ⟨fun h => aluBinary_res16_ok hcs hcap hf h, fun hm h => aluBinary_res16_error hcs hf hm h⟩⟩

/-! ### DIV and MOD (41_alu R125, R126, R134) -/

theorem toInt_wrap16 {x : Int} (h : -32768 ≤ x ∧ x ≤ 32767) : (wrap16 x).toInt = x :=
  BitVec.toInt_ofInt_eq_self (by decide) (by omega) (by omega)

theorem value_toInt_range (a : Value) : -32768 ≤ a.toInt ∧ a.toInt ≤ 32767 :=
  ⟨a.le_toInt, a.toInt_le⟩

theorem value_toInt_ne_zero {b : Value} (hb : b ≠ 0) : b.toInt ≠ 0 := by
  simpa using BitVec.toInt_ne.2 hb

/-- The quotient is an `i16`: over 1 and -1 it is the dividend up to its sign, and over any other
divisor its magnitude is at most half the dividend's. -/
theorem truncQuot_range {a b : Value} (hb : b ≠ 0) (h : ¬(a.toInt = -32768 ∧ b.toInt = -1)) :
    -32768 ≤ truncQuot a b ∧ truncQuot a b ≤ 32767 := by
  have ha := value_toInt_range a
  have hb0 := value_toInt_ne_zero hb
  unfold truncQuot
  rcases eq_or_ne b.toInt 1 with h1 | h1
  · rwa [h1, Int.tdiv_one]
  rcases eq_or_ne b.toInt (-1) with hm1 | hm1
  · rw [hm1, Int.tdiv_neg, Int.tdiv_one]
    omega
  · have hhalf : (a.toInt.tdiv b.toInt).natAbs ≤ a.toInt.natAbs / 2 :=
      (Int.natAbs_tdiv _ _).trans_le (Nat.div_le_div_left (by omega) (by decide))
    omega

/-- MOD's result is the remainder of the division rounded toward zero. -/
theorem sub_mul_truncQuot (a b : Value) :
    a.toInt - b.toInt * truncQuot a b = a.toInt.tmod b.toInt := (Int.tmod_def _ _).symm

theorem natAbs_tmod_lt (x : Int) {y : Int} (hy : y ≠ 0) : (x.tmod y).natAbs < y.natAbs :=
  (Int.natAbs_tmod x y).trans_lt (Nat.mod_lt _ (Int.natAbs_pos.2 hy))

/-- The remainder is an `i16`: it is smaller than the divisor. -/
theorem remainder_range (a : Value) {b : Value} (hb : b ≠ 0) :
    -32768 ≤ a.toInt - b.toInt * truncQuot a b ∧ a.toInt - b.toInt * truncQuot a b ≤ 32767 := by
  have hlt := natAbs_tmod_lt a.toInt (value_toInt_ne_zero hb)
  have hrange := value_toInt_range b
  rw [sub_mul_truncQuot]
  omega

/-- Settles O17: the checks of `divCheck` in their order, then a quotient that narrowing keeps. -/
theorem divEffect : Obligations.DivEffect := by
  refine ⟨rfl, fun s f rest hcs hcap => ?_⟩
  simp only [exec, execDiv]
  refine ⟨aluBinary_short hcs, fun a b S hf => ⟨fun hb => ?_, fun ⟨ha, hb⟩ => ?_, fun hb h => ?_⟩⟩
  · exact aluBinary_divCheck_error hcs hf (hb ▸ divCheck_zero a)
  · exact aluBinary_divCheck_error hcs hf (divCheck_overflow ha hb)
  · exact ⟨_, toInt_wrap16 (truncQuot_range hb h), aluBinary_divCheck_ok hcs hcap hf hb h⟩

/-- Settles O18: the checks of `divCheck` in their order, then a remainder that narrowing keeps. -/
theorem modEffect : Obligations.ModEffect := by
  refine ⟨rfl, fun s f rest hcs hcap => ?_⟩
  simp only [exec, execMod]
  refine ⟨aluBinary_short hcs, fun a b S hf => ⟨fun hb => ?_, fun ⟨ha, hb⟩ => ?_, fun hb h => ?_⟩⟩
  · exact aluBinary_divCheck_error hcs hf (hb ▸ divCheck_zero a)
  · exact aluBinary_divCheck_error hcs hf (divCheck_overflow ha hb)
  · exact ⟨_, toInt_wrap16 (remainder_range a hb), aluBinary_divCheck_ok hcs hcap hf hb h⟩

theorem tmod_nonpos_of_nonpos {x : Int} (y : Int) (hx : x ≤ 0) : x.tmod y ≤ 0 := by
  have h := Int.tmod_nonneg y (Int.neg_nonneg_of_nonpos hx)
  rwa [Int.neg_tmod, Int.neg_nonneg] at h

theorem abs_tmod_lt (x : Int) {y : Int} (hy : y ≠ 0) : |x.tmod y| < |y| := by
  rw [← Int.natCast_natAbs, ← Int.natCast_natAbs]
  exact_mod_cast natAbs_tmod_lt x hy

theorem abs_tdiv_mul_le (x y : Int) : |x.tdiv y * y| ≤ |x| := by
  rw [← Int.natCast_natAbs, ← Int.natCast_natAbs, Int.natAbs_mul, Int.natAbs_tdiv]
  exact_mod_cast Nat.div_mul_le_self _ _

/-- Settles O36: the words O17 and O18 push are the exact quotient and remainder, so the division
law is the integers' own. -/
theorem divModLaw : Obligations.DivModLaw := by
  intro s rest a b S ip hcs hcap hb h
  obtain ⟨q, hq, hdiv⟩ := ((divEffect.2 s _ rest hcs hcap).2 a b S rfl).2.2 hb h
  obtain ⟨r, hr, hmod⟩ := ((modEffect.2 s _ rest hcs hcap).2 a b S rfl).2.2 hb h
  rw [← Int.tmod_def] at hr
  refine ⟨q, r, hdiv, hmod, ?_⟩
  rw [hq, hr]
  exact ⟨(Int.tdiv_mul_add_tmod _ _).symm,
    abs_tmod_lt _ (value_toInt_ne_zero hb),
    Int.tmod_nonneg _, tmod_nonpos_of_nonpos _, abs_tdiv_mul_le _ _⟩

/-! ### The 0/1 results (41_alu R127 to R132) -/

/-- Settles O19: NOT's operation is 1 exactly on 0. -/
theorem notEffect : Obligations.NotEffect := by
  refine ⟨rfl, fun s f rest hcs hcap => ?_⟩
  simp only [exec, execNot]
  refine ⟨fun hl => ?_, fun a S hf => ?_⟩
  · exact aluUnary_short hcs (List.eq_nil_of_length_eq_zero (Nat.lt_one_iff.1 hl))
  · rw [← boolValue_eq_ite (p := !isNonzero a) (by simp [isNonzero])]
    exact aluUnary_ok_of_le hcs hcap hf

/-- Settles O20: OR tests that `a` or `b` is not 0. -/
theorem orEffect : Obligations.OrEffect := by
  refine ⟨rfl, fun s f rest hcs hcap => ?_⟩
  simp only [exec, execOr]
  exact ⟨aluBinary_short hcs, fun a b S hf =>
    aluBinary_boolValue hcs hcap hf (by rw [Bool.or_eq_true, isNonzero_iff, isNonzero_iff])⟩

/-- Settles O21: AND tests that neither `a` nor `b` is 0. -/
theorem andEffect : Obligations.AndEffect := by
  refine ⟨rfl, fun s f rest hcs hcap => ?_⟩
  simp only [exec, execAnd]
  exact ⟨aluBinary_short hcs, fun a b S hf =>
    aluBinary_boolValue hcs hcap hf (by rw [Bool.and_eq_true, isNonzero_iff, isNonzero_iff])⟩

/-- Settles O22: EQ compares the two words. -/
theorem eqEffect : Obligations.EqEffect := by
  refine ⟨rfl, fun s f rest hcs hcap => ?_⟩
  simp only [exec, execEq]
  exact ⟨aluBinary_short hcs, fun a b S hf =>
    aluBinary_boolValue hcs hcap hf decide_eq_true_iff⟩

/-- Settles O23: GT compares the two signed values. -/
theorem gtEffect : Obligations.GtEffect := by
  refine ⟨rfl, fun s f rest hcs hcap => ?_⟩
  simp only [exec, execGt]
  exact ⟨aluBinary_short hcs, fun a b S hf =>
    aluBinary_boolValue hcs hcap hf decide_eq_true_iff⟩

/-- Settles O24: GTE compares the two signed values. -/
theorem gteEffect : Obligations.GteEffect := by
  refine ⟨rfl, fun s f rest hcs hcap => ?_⟩
  simp only [exec, execGte]
  exact ⟨aluBinary_short hcs, fun a b S hf =>
    aluBinary_boolValue hcs hcap hf decide_eq_true_iff⟩

/-! ### Push order (95_test_vectors L1.5) -/

/-- An operation blind to the order of its operands makes an opcode blind to their push order. -/
theorem BinaryEffect.swap {op : Value → Value → Except FaultCause Value}
    (hop : ∀ a b, op a b = op b a) {s t : State} {rest : List Frame} {a b : Value}
    {S : List Value} {ip : Idx}
    (h : BinaryEffect op { s with cs := ⟨a :: b :: S, ip⟩ :: rest } ⟨a :: b :: S, ip⟩ rest t) :
    aluBinary { s with cs := ⟨b :: a :: S, ip⟩ :: rest } op = .next t := by
  obtain ⟨a', b', r, S', hf, hroom, hr, rfl⟩ := h
  obtain ⟨rfl, rfl, rfl⟩ : a = a' ∧ b = b' ∧ S = S' := by simpa using hf
  exact aluBinary_ok rfl ((hop b a).trans hr) hroom

/-- Settles O37: an opcode that completes has had its own effect, and each of the five operations is
symmetric. -/
theorem commutativeOpcodes : Obligations.CommutativeOpcodes := by
  intro i hi s t rest a b S ip _ h ht
  have hE := exec_effect rfl h ht
  simp only [List.mem_cons, List.not_mem_nil, or_false] at hi
  rcases hi with rfl | rfl | rfl | rfl | rfl
  · exact BinaryEffect.swap (fun a b => by rw [Int.add_comm]) hE
  · exact BinaryEffect.swap (fun a b => by rw [Int.mul_comm]) hE
  · exact BinaryEffect.swap (fun a b => by rw [Bool.and_comm]) hE
  · exact BinaryEffect.swap (fun a b => by rw [Bool.or_comm]) hE
  · exact BinaryEffect.swap (fun a b => by simp only [eq_comm]) hE

end Sys2Proof.Machine
end

section
/-! PROOFS. JMP and JMPIF (42_jump R150, R151): the word, the answer for every operand stack, and
the step that meets a target past the program. -/

namespace Sys2Proof.Machine

/-- 30_encoding R84's patterns: an opcode's word is its constant with the operand below. -/
theorem encode_eq_or_of_opcode {i : Instr} {c : IWord} (op : BitVec 8) (hop : opcodeOf i = op)
    (hc : op.setWidth 32 <<< 24 = c) : encode i = c ||| (immOf i).setWidth 32 := by
  rw [encode_eq_or, hop, hc]

section
variable {s : State} {f : Frame} {rest : List Frame}

/-- A running engine's step with its pointer past the program (40_dispatch R102). -/
theorem step_invalidIp (he : s.estate = .running) (hcs : s.cs = f :: rest)
    (hl : s.progLen ≤ f.ip) : step s = .next (faultRecord s .invalidIp f.ip) :=
  (step_running he).trans (engineStep_invalidIp hcs hl)

theorem underflowCause_unchecked {c : Config} (h : c.uniformPrecheck = false) :
    underflowCause c = .operandUnderflow := by
  simp [underflowCause, h]

theorem underflowCause_prechecked {c : Config} (h : c.uniformPrecheck = true) :
    underflowCause c = .insufficientOperands := by
  simp [underflowCause, h]

/-- An opcode that pops one operand unchecked, on an empty stack (40_dispatch R106, R110). -/
theorem withFrame_popOperand_empty {k : Value × Frame → List Frame → Except FaultCause State}
    (hcs : s.cs = f :: rest) (hf : f.stack = []) :
    (withFrame s fun f rest => do let r ← popOperand s.cfg f; k r rest) =
      .next (faultRecord s (underflowCause s.cfg) f.ip) := by
  obtain ⟨stack, ip⟩ := f
  obtain rfl := hf
  exact withFrame_error hcs (by rw [popOperand_nil]; rfl)

/-- The same opcode on a stack that holds an operand: what follows the pop decides. -/
theorem withFrame_popOperand_cons {k : Value × Frame → List Frame → Except FaultCause State}
    {a : Value} {S : List Value} {t : State} (hcs : s.cs = f :: rest) (hf : f.stack = a :: S)
    (hk : k (a, ⟨S, f.ip⟩) rest = .ok t) :
    (withFrame s fun f rest => do let r ← popOperand s.cfg f; k r rest) = .next t := by
  obtain ⟨stack, ip⟩ := f
  obtain rfl := hf
  exact withFrame_ok hcs (by rw [popOperand_cons]; exact hk)

theorem exec_jmp (addr : Idx) (hcs : s.cs = f :: rest) :
    exec (.jmp addr) s = .next (s.setCs (⟨f.stack, addr⟩ :: rest)) := by
  simp only [exec, execJmp]
  exact withFrame_ok hcs rfl

theorem exec_jmpif_empty (addr : Idx) (hcs : s.cs = f :: rest) (hf : f.stack = []) :
    exec (.jmpif addr) s = .next (faultRecord s (underflowCause s.cfg) f.ip) :=
  withFrame_popOperand_empty hcs hf

theorem exec_jmpif_cons (addr : Idx) {a : Value} {S : List Value} (hcs : s.cs = f :: rest)
    (hf : f.stack = a :: S) :
    exec (.jmpif addr) s =
      .next (s.setCs (⟨S, if a = 0 then f.ip + 1 else addr⟩ :: rest)) := by
  refine withFrame_popOperand_cons hcs hf ?_
  simp only [isNonzero_iff]
  by_cases ha : a = 0
  · rw [if_neg (not_not.2 ha), if_pos ha]
    rfl
  · rw [if_pos ha, if_neg ha]
    rfl

end

/-- Settles O25: `exec_jmp` writes the target unchecked, and the next step meets it before any
fetch. -/
theorem jmpEffect : Obligations.JmpEffect := by
  refine fun addr => ⟨encode_eq_or_of_opcode 0x0C rfl (by decide), fun s f rest hcs =>
    ⟨_, exec_jmp addr hcs, rfl, ?_⟩⟩
  intro he hl
  exact step_invalidIp (f := ⟨f.stack, addr⟩) he rfl hl

/-- Settles O26: an empty stack raises the configuration's underflow cause; otherwise
`exec_jmpif_cons` names the next state, and a taken target past the program is met by the next
step. -/
theorem jmpifEffect : Obligations.JmpifEffect := by
  refine fun addr => ⟨encode_eq_or_of_opcode 0x0D rfl (by decide), fun s f rest hcs =>
    ⟨fun hf hc => ?_, fun hf hc => ?_, fun a S hf => ⟨_, exec_jmpif_cons addr hcs hf, rfl, ?_⟩⟩⟩
  · exact underflowCause_unchecked hc ▸ exec_jmpif_empty addr hcs hf
  · exact underflowCause_prechecked hc ▸ exec_jmpif_empty addr hcs hf
  · intro he ha hl
    rw [if_neg ha]
    exact step_invalidIp (f := ⟨S, addr⟩) he rfl hl

end Sys2Proof.Machine
end

section
/-! PROOFS. POP, PUSH, STORE and LOAD (43_stack_globals R160 to R164): the word, the answer for
every operand stack, and what G reads after a store and in a run that stores nothing. -/

namespace Sys2Proof.Machine

/-! ### What the four instructions answer -/

@[simp] theorem globalRead_setCs (s : State) (cs : List Frame) :
    globalRead (s.setCs cs) = globalRead s := rfl

section
variable {s : State} {f : Frame} {rest : List Frame} {v : Value} {S : List Value}

/-- An opcode that pushes onto the current frame, on a full stack (40_dispatch R107). -/
theorem withFrame_opush_full (hcs : s.cs = f :: rest) (hfull : f.stack.length = s.cfg.opstackCap) :
    (withFrame s fun f rest => do let f ← opush s.cfg f v; return complete s f rest) =
      .next (faultRecord s .operandOverflow f.ip) :=
  withFrame_error hcs (by rw [opush_full v hfull]; rfl)

/-- The same opcode on a stack with room, up to the last place. -/
theorem withFrame_opush_room (hcs : s.cs = f :: rest) (hroom : f.stack.length < s.cfg.opstackCap) :
    (withFrame s fun f rest => do let f ← opush s.cfg f v; return complete s f rest) =
      .next (s.setCs (⟨v :: f.stack, f.ip + 1⟩ :: rest)) :=
  withFrame_ok hcs (by rw [opush_room v hroom.ne]; rfl)

theorem exec_pop_empty (hcs : s.cs = f :: rest) (hf : f.stack = []) :
    exec .pop s = .next (faultRecord s (underflowCause s.cfg) f.ip) :=
  withFrame_popOperand_empty hcs hf

theorem exec_pop_cons (hcs : s.cs = f :: rest) (hf : f.stack = v :: S) :
    exec .pop s = .next (s.setCs (⟨S, f.ip + 1⟩ :: rest)) :=
  withFrame_popOperand_cons hcs hf rfl

theorem exec_push_full (v : Value) (hcs : s.cs = f :: rest)
    (hfull : f.stack.length = s.cfg.opstackCap) :
    exec (.push v) s = .next (faultRecord s .operandOverflow f.ip) :=
  withFrame_opush_full hcs hfull

theorem exec_push_room (v : Value) (hcs : s.cs = f :: rest)
    (hroom : f.stack.length < s.cfg.opstackCap) :
    exec (.push v) s = .next (s.setCs (⟨v :: f.stack, f.ip + 1⟩ :: rest)) :=
  withFrame_opush_room hcs hroom

theorem exec_store_empty (addr : Idx) (hcs : s.cs = f :: rest) (hf : f.stack = []) :
    exec (.store addr) s = .next (faultRecord s (underflowCause s.cfg) f.ip) :=
  withFrame_popOperand_empty hcs hf

theorem exec_store_cons (addr : Idx) (hcs : s.cs = f :: rest) (hf : f.stack = v :: S) :
    exec (.store addr) s =
      .next ((s.globalWrite addr v).setCs (⟨S, f.ip + 1⟩ :: rest)) :=
  withFrame_popOperand_cons hcs hf rfl

theorem exec_load_full (addr : Idx) (hcs : s.cs = f :: rest)
    (hfull : f.stack.length = s.cfg.opstackCap) :
    exec (.load addr) s = .next (faultRecord s .operandOverflow f.ip) :=
  withFrame_opush_full hcs hfull

theorem exec_load_room (addr : Idx) (hcs : s.cs = f :: rest)
    (hroom : f.stack.length < s.cfg.opstackCap) :
    exec (.load addr) s =
      .next (s.setCs (⟨globalRead s addr :: f.stack, f.ip + 1⟩ :: rest)) :=
  withFrame_opush_room hcs hroom

end

/-- Settles O27: an empty stack raises the configuration's underflow cause, and otherwise
`exec_pop_cons` names the next state. -/
theorem popEffect : Obligations.PopEffect :=
  ⟨rfl, fun _ _ _ hcs =>
    ⟨fun hf hc => underflowCause_unchecked hc ▸ exec_pop_empty hcs hf,
      fun hf hc => underflowCause_prechecked hc ▸ exec_pop_empty hcs hf,
      fun _ _ => exec_pop_cons hcs⟩⟩

/-- Settles O28: the push is refused exactly at the capacity. -/
theorem pushEffect : Obligations.PushEffect :=
  fun v => ⟨encode_eq_or_of_opcode 0x0F rfl (by decide), fun _ _ _ hcs =>
    ⟨exec_push_full v hcs, exec_push_room v hcs⟩⟩

/-- Settles O29: `exec_store_cons` names the next state, and `globalRead_globalWrite` what G reads
there. -/
theorem storeEffect : Obligations.StoreEffect := by
  refine fun addr => ⟨encode_eq_or_of_opcode 0x10 rfl (by decide), fun s f rest hcs =>
    ⟨fun hf hc => underflowCause_unchecked hc ▸ exec_store_empty addr hcs hf,
      fun hf hc => underflowCause_prechecked hc ▸ exec_store_empty addr hcs hf,
      fun v S hf => ⟨_, exec_store_cons addr hcs hf, rfl, ?_, fun a ha => ?_⟩⟩⟩
  · simp [globalRead_globalWrite]
  · simp [globalRead_globalWrite, ha]

/-! ### A run that stores nothing at an address -/

/-- No event of `es`, run from `s` after a reset, completes STORE `addr`. -/
def NeverStored (addr : Idx) (es : List Event) (s : State) : Prop :=
  ∀ (before later : List Event) (e : Event) (u v : State), es = before ++ e :: later →
    events (.host .reset :: before) s = .next u → event e u = .next v → ¬Stores e addr u v

/-- A run that never stores at `addr` has not stored there before its last event. -/
theorem NeverStored.of_append {addr : Idx} {es tail : List Event} {s : State}
    (h : NeverStored addr (es ++ tail) s) : NeverStored addr es s :=
  fun before later e u v hes => h before (later ++ tail) e u v (by simp [hes])

/-- An entry that reads 0 reads 0 after any event but its own STORE: reset clears G, and nothing
else writes the entry (10_state R36). -/
theorem globalRead_eq_zero_of_event {e : Event} {s t : State} {addr : Idx}
    (h : event e s = .next t) (hns : ¬Stores e addr s t) (hs : globalRead s addr = 0) :
    globalRead t addr = 0 := by
  by_cases he : e = .host .reset
  · subst he
    cases h
    rfl
  · by_contra hne
    exact hns (stores_of_globalRead_ne he h (by rwa [hs]))

/-- Induction on the run's last event. -/
theorem globalRead_eq_zero_of_neverStored {es : List Event} {s t : State} {addr : Idx}
    (h : events (.host .reset :: es) s = .next t) (hns : NeverStored addr es s) :
    globalRead t addr = 0 := by
  induction es using List.reverseRecOn generalizing t with
  | nil =>
    cases h
    rfl
  | append_singleton es e ih =>
    obtain ⟨u, hu, he⟩ := events_snoc (es := .host .reset :: es) h
    exact globalRead_eq_zero_of_event he (hns es [] e u t rfl hu he) (ih hu hns.of_append)

/-- Settles O30: LOAD pushes what G reads, and by induction on the run that is 0 where no STORE
wrote. -/
theorem loadEffect : Obligations.LoadEffect :=
  fun addr => ⟨encode_eq_or_of_opcode 0x11 rfl (by decide),
    fun _ _ _ hcs => ⟨exec_load_full addr hcs, exec_load_room addr hcs⟩,
    fun _ _ _ => globalRead_eq_zero_of_neverStored⟩

/-! ### The round trip through G -/

/-- Settles O38: the push leaves STORE an operand, STORE's pop leaves LOAD the room that the push
had, and LOAD reads what STORE wrote. -/
theorem pushStoreLoadRoundTrip : Obligations.PushStoreLoadRoundTrip := by
  intro s f rest a v hcs hroom
  refine ⟨_, _, _, exec_push_room v hcs hroom, exec_store_cons a rfl rfl,
    exec_load_room a rfl hroom, ?_, ?_, fun b hb => ?_⟩
  · simp [globalRead_globalWrite, BitVec.add_assoc]
  · simp [globalRead_globalWrite]
  · simp [globalRead_globalWrite, hb]

end Sys2Proof.Machine
end

section
/-! PROOFS. CALL, RET and RETVAL (44_call R170 to R173): the word, the answer in every state with a
current frame, the return to the caller, and the return addresses beneath the top. -/

namespace Sys2Proof.Machine

/-! ### Return addresses (44_call R173) -/

/-- Settles O48: a fault entry leaves CS and the program; a completed instruction is the current
one, and `Completes.returns` gives the new frame beneath, the caller of a CALL, that CALL's word. -/
theorem returnAddressesKept : Obligations.ReturnAddressesKept := by
  intro s t hr h
  obtain ⟨-, hs⟩ := step_next h
  rcases engineStep_cases hs with ⟨c, ip, -, rfl⟩ | ⟨i, hi, -, hC⟩
  · exact hr
  · exact hC.returns hi hr

/-! ### What the three instructions answer -/

section
variable {s : State} {f C : Frame} {rest below : List Frame} {v : Value} {S : List Value}

theorem exec_call_full (addr : Idx) (hcs : s.cs = f :: rest)
    (hfull : s.cs.length = s.cfg.callstackCap) :
    exec (.call addr) s = .next (faultRecord s .callOverflow f.ip) := by
  rw [hcs] at hfull
  exact withFrame_error hcs (by rw [cpush_full (cs := f.advance :: rest) _ hfull]; rfl)

theorem exec_call_room (addr : Idx) (hcs : s.cs = f :: rest)
    (hroom : s.cs.length < s.cfg.callstackCap) :
    exec (.call addr) s =
      .next (s.setCs (⟨[], addr⟩ :: ⟨f.stack, f.ip + 1⟩ :: rest)) := by
  rw [hcs] at hroom
  exact withFrame_ok hcs (by rw [cpush_room (cs := f.advance :: rest) _ hroom.ne]; rfl)

theorem exec_ret (hcs : s.cs = f :: rest) : exec .ret s = .next (s.setCs rest) := by
  simp only [exec, execRet]
  exact withFrame_ok hcs rfl

theorem exec_retval_empty (hcs : s.cs = f :: rest) (hf : f.stack = []) :
    exec .retval s = .next (faultRecord s (underflowCause s.cfg) f.ip) :=
  withFrame_popOperand_empty hcs hf

/-- A fault met after the pop takes the state at the start of the step (40_dispatch R105). -/
theorem withFrame_popOperand_cons_error
    {k : Value × Frame → List Frame → Except FaultCause State} {c : FaultCause}
    (hcs : s.cs = f :: rest) (hf : f.stack = v :: S)
    (hk : k (v, ⟨S, f.ip⟩) rest = .error c) :
    (withFrame s fun f rest => do let r ← popOperand s.cfg f; k r rest) =
      .next (faultRecord s c f.ip) := by
  obtain ⟨stack, ip⟩ := f
  obtain rfl := hf
  exact withFrame_error hcs (by rw [popOperand_cons]; exact hk)

theorem exec_retval_noCaller (hcs : s.cs = [f]) (hf : f.stack = v :: S) :
    exec .retval s = .next (faultRecord s .emptyCallStack f.ip) :=
  withFrame_popOperand_cons_error hcs hf rfl

theorem exec_retval_full (hcs : s.cs = f :: C :: below) (hf : f.stack = v :: S)
    (hfull : C.stack.length = s.cfg.opstackCap) :
    exec .retval s = .next (faultRecord s .operandOverflow f.ip) :=
  withFrame_popOperand_cons_error hcs hf (by simp [cpop, opush_full v hfull])

theorem exec_retval_room (hcs : s.cs = f :: C :: below) (hf : f.stack = v :: S)
    (hroom : C.stack.length < s.cfg.opstackCap) :
    exec .retval s = .next (s.setCs (⟨v :: C.stack, C.ip⟩ :: below)) :=
  withFrame_popOperand_cons hcs hf (by simp [cpop, opush_room v hroom.ne, reinsert])

end

/-- Settles O31: the push of the new frame is refused exactly at the capacity, and a target past
the program is met by the next step. -/
theorem callEffect : Obligations.CallEffect := by
  refine fun addr => ⟨encode_eq_or_of_opcode 0x12 rfl (by decide), fun s f rest hcs =>
    ⟨exec_call_full addr hcs, fun hroom => ⟨_, exec_call_room addr hcs hroom, rfl, ?_⟩⟩⟩
  intro he hl
  exact step_invalidIp (f := ⟨[], addr⟩) he rfl hl

/-- Settles O32: RET leaves the frames beneath, and with none of them either kind of step is
`engineStep` on an empty call stack. -/
theorem retEffect : Obligations.RetEffect := by
  refine ⟨rfl, fun s f rest hcs => ⟨_, exec_ret hcs, rfl, fun hrest => ?_⟩⟩
  have hempty := engineStep_empty (s := s.setCs rest) hrest
  exact ⟨fun he => (step_running (s := s.setCs rest) he).trans hempty,
    fun he => (hostStep_paused (s := s.setCs rest) he).trans hempty⟩

/-- Settles O33: the checks in their order are the pop, the caller and the caller's room, and each
has its own answer. -/
theorem retvalEffect : Obligations.RetvalEffect := by
  refine ⟨rfl, fun s f rest hcs => ⟨fun hf hc => ?_, fun hf hc => ?_, fun v S hf =>
    ⟨fun hrest => ?_, fun C below hrest => ?_⟩⟩⟩
  · exact underflowCause_unchecked hc ▸ exec_retval_empty hcs hf
  · exact underflowCause_prechecked hc ▸ exec_retval_empty hcs hf
  · exact exec_retval_noCaller (hrest ▸ hcs) hf
  · subst hrest
    exact ⟨exec_retval_full hcs hf, exec_retval_room hcs hf⟩

/-! ### CALL and the return (95_test_vectors L1.7, L1.8) -/

/-- Settles O39: a CALL that completes leaves its advanced caller on top of the frames beneath, and
RET and RETVAL bring that frame back. -/
theorem callThenReturnRestoresCaller : Obligations.CallThenReturnRestoresCaller := by
  intro addr s t u f g rest hcs _ hcall ht hu
  obtain ⟨-, rfl⟩ : Effect s f rest t (.call addr) := exec_effect hcs hcall ht
  exact ⟨exec_ret hu, fun v S hg hroom => exec_retval_room hu hg hroom⟩

end Sys2Proof.Machine
end

section
/-! PROOFS. OUT, HALT and the output channel (45_output_halt R180 to R182): the word, the answer of
the two instructions, what can happen after a halt, and the growth of OUT_LOG. -/

namespace Sys2Proof.Machine

/-! ### What the two instructions answer -/

section
variable {s : State} {f : Frame} {rest : List Frame}

theorem exec_out_empty (hcs : s.cs = f :: rest) (hf : f.stack = []) :
    exec .out s = .next (faultRecord s (underflowCause s.cfg) f.ip) :=
  withFrame_popOperand_empty hcs hf

theorem exec_out_cons {v : Value} {S : List Value} (hcs : s.cs = f :: rest)
    (hf : f.stack = v :: S) :
    exec .out s = .next ((s.emit .out v).setCs (⟨S, f.ip + 1⟩ :: rest)) :=
  withFrame_popOperand_cons hcs hf rfl

theorem exec_halt (code : Value) (hcs : s.cs = f :: rest) :
    exec (.halt code) s = .next (((s.setCs rest).setHalted code).emit .halt code) := by
  simp only [exec, execHalt]
  exact withFrame_ok hcs rfl

end

/-- Settles O34: an empty stack raises the configuration's underflow cause, and otherwise
`exec_out_cons` names the next state. -/
theorem outEffect : Obligations.OutEffect :=
  ⟨rfl, fun _ _ _ hcs =>
    ⟨fun hf hc => underflowCause_unchecked hc ▸ exec_out_empty hcs hf,
      fun hf hc => underflowCause_prechecked hc ▸ exec_out_empty hcs hf,
      fun _ _ => exec_out_cons hcs⟩⟩

/-! ### After the end of a run (40_dispatch R112; 70 R239, R242) -/

theorem Ended.not_active {s : State} (h : Ended s) : ¬Active s := by
  intro ha
  rcases h with h | h
  · exact ha.not_halted h
  · exact ha.not_faulted h

theorem Ended.not_idle {s : State} (h : Ended s) : s.estate ≠ .idle := by
  rcases h with h | h <;> simp [h]

theorem OnlyDraws.estate {s t : State} (h : OnlyDraws s t) : t.estate = s.estate := by
  rw [h]

/-- Once the run has ended no event but reset has an effect: the engine steps in RUNNING and PAUSED
alone, and every write of the host needs IDLE or PAUSED. -/
theorem Ended.onlyDraws {e : Event} {s t : State} (hs : Ended s) (h : event e s = .next t)
    (he : e ≠ .host .reset) : OnlyDraws s t := by
  cases e with
  | engine => exact absurd (.inl (step_next h).1) hs.not_active
  | host a =>
    obtain ⟨r, ha⟩ := event_host h
    cases hostAct_effect ha with
    | reset => exact absurd rfl he
    | nothing _ _ _ _ ht => exact ht
    | imem _ _ _ hidle | entry _ _ hidle | progLen _ _ hidle | start _ _ _ hidle =>
      exact absurd hidle hs.not_idle
    | run _ _ _ hpaused | step _ _ _ _ hpaused => exact absurd (.inr hpaused) hs.not_active

/-- Settles O35: `exec_halt` names the next state; it has ended, so neither agent takes a step from
it and no event but reset leaves HALTED. -/
theorem haltEffect : Obligations.HaltEffect := by
  refine fun code => ⟨encode_eq_or_of_opcode 0x16 rfl (by decide), fun s f rest hcs =>
    ⟨_, exec_halt code hcs, rfl, fun u hu => ?_, rfl, fun e u hu he => ?_⟩⟩
  · exact nomatch (step_next hu).1
  · have hended : Ended (((s.setCs rest).setHalted code).emit .halt code) := .inl rfl
    exact (hended.onlyDraws hu he).estate

/-! ### The growth of OUT_LOG (10_state R43) -/

/-- Of the instructions only OUT and HALT emit, and each puts one event at the end of the log
(45 R180, R181). -/
theorem Beside.outLog_grows {s u : State} {i : Instr} (h : Beside s i u) :
    u.outLog = s.outLog ∨ ∃ x, u.outLog = s.outLog ++ [x] := by
  cases h with
  | out | halt => exact .inr ⟨_, rfl⟩
  | _ => exact .inl rfl

theorem Completes.outLog_grows {i : Instr} {s t : State} (h : Completes i s t) :
    t.outLog = s.outLog ∨ ∃ x, t.outLog = s.outLog ++ [x] := by
  cases h with
  | intro _ _ _ _ _ hu _ => exact hu.outLog_grows

/-- A completed instruction enters no fault (60_exceptions R203). -/
theorem Completes.not_faulted {i : Instr} {s t : State} (h : Completes i s t)
    (hs : s.estate ≠ .faulted) : t.estate ≠ .faulted := by
  rcases h.estate with ht | ⟨_, -, ht⟩
  · exact ht ▸ hs
  · simp [ht]

theorem OnlyHostWrites.outLog {s t : State} (h : OnlyHostWrites s t) : t.outLog = s.outLog := by
  rw [h]

/-- Settles O50: a fault entry and the host's acts leave the log; a completed instruction adds at
most one event and enters no fault. -/
theorem outputLogOnlyGrows : Obligations.OutputLogOnlyGrows := by
  intro e s t he h
  rcases event_cases h with ⟨-, hs⟩ | ⟨hreset, -⟩ | hH
  · rcases engineStep_cases hs with ⟨c, ip, -, rfl⟩ | ⟨_, -, -, hC⟩
    · exact ⟨.inl rfl, fun _ _ => rfl⟩
    · exact ⟨hC.outLog_grows, fun hs ht => absurd ht (hC.not_faulted hs)⟩
  · exact absurd hreset he
  · exact ⟨.inl hH.outLog, fun _ _ => hH.outLog⟩

end Sys2Proof.Machine
end

section
/-! PROOFS. Exceptions (60_exceptions R200 to R203): what a faulting step leaves, and which causes
each instruction can raise. -/

namespace Sys2Proof.Machine

/-! ### Fault entry (60_exceptions R202, R203) -/

/-- Settles O11: a step that ends in FAULTED has entered a fault, since an instruction that
completes enters none; both records of a fault entry are the state at the start of the step but for
their own fields, and only a running engine steps. -/
theorem faultEntryIsPrecise : Obligations.FaultEntryIsPrecise := by
  intro s t hrun h hfault
  have hends : ∀ u, step t ≠ .next u := fun u hu => by simp [(step_next hu).1] at hfault
  rcases engineStep_next (step_next h).2 with
    ⟨hnil, rfl⟩ | ⟨f, rest, hcs, ⟨c, hc, rfl⟩ | ⟨_, _, -, -, -, -, hE⟩⟩
  · exact ⟨rfl, nofun, fun _ => ⟨rfl, rfl, rfl⟩, fun _ _ hcs => by simp [hnil] at hcs, hends⟩
  · refine ⟨rfl, hc, fun hnil => by simp [hnil] at hcs, fun f' rest' hcs' => ?_, hends⟩
    obtain ⟨rfl, -⟩ : f = f' ∧ rest = rest' := by simpa [hcs] using hcs'
    exact ⟨rfl, rfl⟩
  · exact absurd hfault ((hE.completes hcs).not_faulted (by simp [hrun]))

/-! ### The causes of an instruction (60_exceptions R201) -/

/-- No other cause: within the capacities, the cause of a fault an instruction enters is its own. -/
theorem mem_ownCauses_of_exec {i : Instr} {s : State} {k : FaultCause} {f : Frame}
    {rest : List Frame} (hs : s.estate ≠ .faulted) (hcs : s.cs = f :: rest)
    (hcap : f.stack.length ≤ s.cfg.opstackCap) (hx : exec i s = .next (faultRecord s k f.ip)) :
    k ∈ ownCauses s.cfg i := by
  obtain ⟨t, ht, hA⟩ := exec_answers i s
  obtain rfl : faultRecord s k f.ip = t := by simpa [hx] using ht
  rcases hA with ⟨hnil, -⟩ | ⟨f', rest', hcs', hA⟩
  · simp [hnil] at hcs
  · obtain ⟨rfl, -⟩ : f = f' ∧ rest = rest' := by simpa [hcs] using hcs'
    rcases hA with ⟨k', hk', hrec⟩ | hE
    · obtain rfl : k = k' := congrArg State.faultCause hrec
      exact hk'.mem_ownCauses hcap
    · exact absurd rfl ((hE.completes hcs').not_faulted hs)

/-- A running state within the capacities of `c` has a current frame on which `i` enters the fault
`k`. -/
def Raisable (c : Config) (i : Instr) (k : FaultCause) : Prop :=
  ∃ (s : State) (f : Frame) (rest : List Frame),
    s.cfg = c ∧ s.estate = .running ∧ CapacityInv s ∧ s.cs = f :: rest ∧
      exec i s = .next (faultRecord s k f.ip)

/-- A running engine with the parameters `c` and the call stack `cs`. -/
def runningOn (c : Config) (cs : List Frame) : State :=
  { State.resetWith c 0 with estate := .running, cs := cs }

section
variable {c : Config} {i : Instr} {k : FaultCause}

/-- An instruction that enters the fault on one call stack within the capacities can raise it. -/
theorem raisable_of_frames (f : Frame) (rest : List Frame)
    (hlen : (f :: rest).length ≤ c.callstackCap)
    (hcap : ∀ g ∈ f :: rest, g.stack.length ≤ c.opstackCap)
    (hx : ∀ s, s.cfg = c → s.cs = f :: rest → exec i s = .next (faultRecord s k f.ip)) :
    Raisable c i k :=
  ⟨runningOn c (f :: rest), f, rest, rfl, rfl, ⟨Nat.le_trans (by simp) hlen, hlen, hcap⟩, rfl,
    hx _ rfl rfl⟩

/-- The same for a call stack of one frame, which is given by its operand stack. -/
theorem raisable_of_stack (S : List Value) (hlen : 1 ≤ c.callstackCap)
    (hcap : S.length ≤ c.opstackCap)
    (hx : ∀ s, s.cfg = c → s.cs = [⟨S, 0⟩] → exec i s = .next (faultRecord s k 0)) :
    Raisable c i k :=
  raisable_of_frames ⟨S, 0⟩ [] hlen (by simpa using hcap) hx

theorem raisable_insufficientOperands (hlen : 1 ≤ c.callstackCap)
    (hi : ∀ s, s.cs = [⟨[], 0⟩] → exec i s = .next (faultRecord s .insufficientOperands 0)) :
    Raisable c i .insufficientOperands :=
  raisable_of_stack [] hlen (Nat.zero_le _) fun s _ => hi s

/-- Both causes of an opcode of R121's law, whose exact result on `a` and `b` is no `i16`. -/
theorem raisable_of_res16 {x : Value → Value → Int} (a b : Value) (hlen : 1 ≤ c.callstackCap)
    (hop : 2 ≤ c.opstackCap) (hi : ∀ s, exec i s = aluBinary s fun a b => res16 s.cfg (x a b))
    (hx : x a b < -32768 ∨ 32767 < x a b)
    (hk : k = .insufficientOperands ∨ c.overflowMode = .fault ∧ k = .arithOverflow) :
    Raisable c i k := by
  rcases hk with rfl | ⟨hm, rfl⟩
  · exact raisable_insufficientOperands hlen fun s hcs =>
      (hi s).trans (aluBinary_short hcs Nat.zero_lt_two)
  · exact raisable_of_stack [a, b] hlen hop fun s hc hcs =>
      (hi s).trans (aluBinary_res16_error hcs rfl (hc ▸ hm) hx)

/-- The three causes of DIV and MOD. -/
theorem raisable_of_divCheck {x : Value → Value → Int} (hlen : 1 ≤ c.callstackCap)
    (hop : 2 ≤ c.opstackCap)
    (hi : ∀ s, exec i s = aluBinary s fun a b => do divCheck a b; return wrap16 (x a b))
    (hk : k = .insufficientOperands ∨ k = .divideByZero ∨ k = .divideOverflow) :
    Raisable c i k := by
  have hcheck : ∀ a b, divCheck a b = .error k → Raisable c i k := fun a b h =>
    raisable_of_stack [a, b] hlen hop fun s _ hcs =>
      (hi s).trans (aluBinary_divCheck_error hcs rfl h)
  rcases hk with rfl | rfl | rfl
  · exact raisable_insufficientOperands hlen fun s hcs =>
      (hi s).trans (aluBinary_short hcs Nat.zero_lt_two)
  · exact hcheck 0 0 (divCheck_zero 0)
  · exact hcheck (-32768) (-1) (divCheck_overflow rfl rfl)

theorem raisable_underflowCause (hlen : 1 ≤ c.callstackCap)
    (hi : ∀ s, s.cs = [⟨[], 0⟩] → exec i s = .next (faultRecord s (underflowCause s.cfg) 0)) :
    Raisable c i (underflowCause c) :=
  raisable_of_stack [] hlen (Nat.zero_le _) fun s hc hcs => hc ▸ hi s hcs

theorem raisable_operandOverflow (hlen : 1 ≤ c.callstackCap)
    (hi : ∀ s f, s.cs = [f] → f.stack.length = s.cfg.opstackCap →
      exec i s = .next (faultRecord s .operandOverflow f.ip)) : Raisable c i .operandOverflow :=
  raisable_of_stack (.replicate c.opstackCap 0) hlen (by simp) fun s hc hcs =>
    hi s _ hcs (by simp [hc])

/-- CALL on a call stack of empty frames that is exactly full. -/
theorem raisable_callOverflow (addr : Idx) (hlen : 1 ≤ c.callstackCap) :
    Raisable c (.call addr) .callOverflow := by
  have hfull : (⟨[], 0⟩ :: List.replicate (c.callstackCap - 1) (⟨[], 0⟩ : Frame)).length =
      c.callstackCap := by simp; omega
  refine raisable_of_frames _ _ hfull.le (fun g hg => ?_) fun s hc hcs =>
    exec_call_full addr hcs (by rw [hcs, hc, hfull])
  obtain rfl | ⟨-, rfl⟩ := by simpa using hg
  · simp
  · simp

/-- RETVAL with a value to return to a caller whose operand stack is exactly full. -/
theorem raisable_retval_operandOverflow (hlen : 2 ≤ c.callstackCap) (hop : 1 ≤ c.opstackCap) :
    Raisable c .retval .operandOverflow :=
  raisable_of_frames ⟨[0], 0⟩ [⟨.replicate c.opstackCap 0, 0⟩] hlen (by simpa using hop)
    fun s hc hcs => exec_retval_full hcs rfl (by simp [hc])

/-- Every cause of the table: each is the fault of an operand stack that is too short, of operands
that the opcode's check refuses, or of a stack that is exactly full. -/
theorem raisable_of_mem_ownCauses (hop : 2 ≤ c.opstackCap) (hcall : 2 ≤ c.callstackCap)
    (hk : k ∈ ownCauses c i) : Raisable c i k := by
  have hlen : 1 ≤ c.callstackCap := by omega
  cases i with
  | add =>
    exact raisable_of_res16 (x := fun a b => a.toInt + b.toInt) 32767 1 hlen hop
      (fun s => by simp only [exec, execAdd]) (by decide) (by simpa [ownCauses] using hk)
  | sub =>
    exact raisable_of_res16 (x := fun a b => a.toInt - b.toInt) 32767 (-1) hlen hop
      (fun s => by simp only [exec, execSub]) (by decide) (by simpa [ownCauses] using hk)
  | mul =>
    exact raisable_of_res16 (x := fun a b => a.toInt * b.toInt) 32767 2 hlen hop
      (fun s => by simp only [exec, execMul]) (by decide) (by simpa [ownCauses] using hk)
  | div =>
    exact raisable_of_divCheck (x := truncQuot) hlen hop
      (fun s => by simp only [exec, execDiv]) (by simpa [ownCauses] using hk)
  | mod =>
    exact raisable_of_divCheck (x := fun a b => a.toInt - b.toInt * truncQuot a b) hlen hop
      (fun s => by simp only [exec, execMod]) (by simpa [ownCauses] using hk)
  | or =>
    obtain rfl := List.mem_singleton.1 hk
    exact raisable_insufficientOperands hlen fun s hcs =>
      (orEffect.2 s _ _ hcs (Nat.zero_le _)).1 Nat.zero_lt_two
  | and =>
    obtain rfl := List.mem_singleton.1 hk
    exact raisable_insufficientOperands hlen fun s hcs =>
      (andEffect.2 s _ _ hcs (Nat.zero_le _)).1 Nat.zero_lt_two
  | eq =>
    obtain rfl := List.mem_singleton.1 hk
    exact raisable_insufficientOperands hlen fun s hcs =>
      (eqEffect.2 s _ _ hcs (Nat.zero_le _)).1 Nat.zero_lt_two
  | gt =>
    obtain rfl := List.mem_singleton.1 hk
    exact raisable_insufficientOperands hlen fun s hcs =>
      (gtEffect.2 s _ _ hcs (Nat.zero_le _)).1 Nat.zero_lt_two
  | gte =>
    obtain rfl := List.mem_singleton.1 hk
    exact raisable_insufficientOperands hlen fun s hcs =>
      (gteEffect.2 s _ _ hcs (Nat.zero_le _)).1 Nat.zero_lt_two
  | not =>
    obtain rfl := List.mem_singleton.1 hk
    exact raisable_insufficientOperands hlen fun s hcs =>
      (notEffect.2 s _ _ hcs (Nat.zero_le _)).1 Nat.zero_lt_one
  | jmp | ret | halt => simp [ownCauses] at hk
  | jmpif addr =>
    obtain rfl := List.mem_singleton.1 hk
    exact raisable_underflowCause hlen fun s hcs => exec_jmpif_empty addr hcs rfl
  | pop =>
    obtain rfl := List.mem_singleton.1 hk
    exact raisable_underflowCause hlen fun s hcs => exec_pop_empty hcs rfl
  | store addr =>
    obtain rfl := List.mem_singleton.1 hk
    exact raisable_underflowCause hlen fun s hcs => exec_store_empty addr hcs rfl
  | out =>
    obtain rfl := List.mem_singleton.1 hk
    exact raisable_underflowCause hlen fun s hcs => exec_out_empty hcs rfl
  | push v =>
    obtain rfl := List.mem_singleton.1 hk
    exact raisable_operandOverflow hlen fun s f => exec_push_full v
  | load addr =>
    obtain rfl := List.mem_singleton.1 hk
    exact raisable_operandOverflow hlen fun s f => exec_load_full addr
  | call addr =>
    obtain rfl := List.mem_singleton.1 hk
    exact raisable_callOverflow addr hlen
  | retval =>
    obtain rfl | rfl | rfl := by simpa [ownCauses] using hk
    · exact raisable_underflowCause hlen fun s hcs => exec_retval_empty hcs rfl
    · exact raisable_of_stack [0] hlen (by simp; omega) fun s _ hcs => exec_retval_noCaller hcs rfl
    · exact raisable_retval_operandOverflow hcall (by omega)

end

/-- Settles O12: each cause of the table has a state that raises it, and within the capacities an
instruction raises no other. -/
theorem instructionCausesExact : Obligations.InstructionCausesExact := by
  intro c hop hcall i k
  refine ⟨raisable_of_mem_ownCauses hop hcall, ?_⟩
  rintro ⟨s, f, rest, rfl, hrun, ⟨-, -, hstack⟩, hcs, hx⟩
  exact mem_ownCauses_of_exec (by simp [hrun]) hcs (hstack f (by simp [hcs])) hx

end Sys2Proof.Machine
end

section
/-! PROOFS. The engine's invariant across the host's acts (70_reset_and_hazards R230 to R240). -/

namespace Sys2Proof.Machine

section
variable {s t : State}

/-- The draw counter stands in no clause of the invariant. -/
theorem OnlyDraws.engineInv (h : OnlyDraws s t) (hinv : EngineInv s) : EngineInv t := by
  rw [h]
  exact ⟨hinv.memory, hinv.capacity, hinv.status, hinv.outLog, hinv.returns, hinv.idle, hinv.loaded⟩

/-- In IDLE the program may be replaced: there is no frame to return to, and the launch check is
still to come. -/
theorem EngineInv.load (hinv : EngineInv s) (hidle : s.estate = .idle) (hmem : Memory.wf t)
    (ht : t = { s with imem := t.imem, progLen := t.progLen, entry := t.entry }) :
    EngineInv t := by
  obtain ⟨hcs, -, -⟩ := hinv.idle hidle
  rw [ht] at hmem ⊢
  refine ⟨hmem, hinv.capacity, hinv.status, hinv.outLog, fun f hf => ?_, hinv.idle,
    fun he => absurd hidle he⟩
  simp [hcs] at hf

theorem StatusInv.setEstate {e : EngineState} (h : StatusInv s) (hs : ¬Ended s)
    (ht : ¬Ended (s.setEstate e)) : StatusInv (s.setEstate e) := by
  simp only [Ended, State.setEstate_estate, not_or] at hs ht
  simpa [StatusInv, hs, ht] using h

theorem OutLogInv.setEstate {e : EngineState} (h : OutLogInv s) (hs : ¬Ended s)
    (ht : ¬Ended (s.setEstate e)) : OutLogInv (s.setEstate e) := by
  simp only [Ended, State.setEstate_estate, not_or] at hs ht
  simpa [OutLogInv, hs, ht] using h

/-- START of a written program seeds one frame (70 R233), for which a well-formed configuration has
room. -/
theorem EngineInv.start (hinv : EngineInv s) (hidle : s.estate = .idle)
    (hw : firstUnwritten s = none) :
    EngineInv ((s.setCs [⟨[], s.entry⟩]).setEstate .paused) where
  memory := hinv.memory
  capacity :=
    have ⟨hroom, _, _⟩ := hinv.capacity
    ⟨hroom, by simpa using hroom, by simp⟩
  status := StatusInv.setEstate hinv.status (by simp [Ended, hidle]) (by simp [Ended])
  outLog := OutLogInv.setEstate hinv.outLog (by simp [Ended, hidle]) (by simp [Ended])
  returns := fun f hf => by simp at hf
  idle := fun he => nomatch he
  loaded := fun _ => (firstUnwritten_eq_none s).1 hw

theorem EngineInv.run (hinv : EngineInv s) (hpaused : s.estate = .paused) :
    EngineInv (s.setEstate .running) where
  memory := hinv.memory
  capacity := hinv.capacity
  status := hinv.status.setEstate (by simp [Ended, hpaused]) (by simp [Ended])
  outLog := hinv.outLog.setEstate (by simp [Ended, hpaused]) (by simp [Ended])
  returns := hinv.returns
  idle := fun he => nomatch he
  loaded := fun _ => hinv.loaded (by simp [hpaused])

theorem HostEffect.engineInv {a : HostAction} (h : HostEffect a s t) (hinv : EngineInv s) :
    EngineInv t := by
  cases h with
  | reset => exact engineInv_resetWith s.draws (decide_eq_true hinv.capacity.1)
  | nothing _ _ _ _ ht => exact ht.engineInv hinv
  | imem i w _ hidle hi =>
    exact hinv.load hidle (Memory.wf_imemWrite hinv.memory w (by bv_omega)) rfl
  | entry _ _ hidle | progLen _ _ hidle => exact hinv.load hidle hinv.memory rfl
  | start _ _ _ hidle hw => exact hinv.start hidle hw
  | run _ _ _ hpaused => exact hinv.run hpaused
  | step _ _ _ _ hpaused ht => exact engineInv_engineStep hinv (.inr hpaused) ht

end

/-- Settles O46: the acts by their effects, each of which keeps the invariant. -/
theorem invKeptByHost : Obligations.InvKeptByHost :=
  fun _ _ _ _ hinv h => (hostAct_effect h).engineInv hinv

end Sys2Proof.Machine
end

section
/-! PROOFS. The host's writes and commands (70 R232 to R236, R239): what each answers in each
ENGINE_STATE. -/

namespace Sys2Proof.Machine

/-! ### Program load (70 R232) -/

theorem event_writeProgLen (w : BitVec 32) (s : State) :
    event (.host (.writeReg 0x05 w)) s = .next (s.hostWriteProgLen (w.extractLsb' 0 16)) := rfl

theorem event_writeEntry (w : BitVec 32) (s : State) :
    event (.host (.writeReg 0x04 w)) s = .next (s.hostWriteEntry (w.extractLsb' 0 16)) := rfl

section
variable {s : State}

theorem hostWriteImem_idle (h : s.estate = .idle) {i : Idx} (hi : i ≠ 0xFFFF#16) (w : IWord) :
    s.hostWriteImem i w = s.imemWrite i w := if_pos ⟨h, hi⟩

theorem hostWriteImem_of_not_idle (h : s.estate ≠ .idle) (i : Idx) (w : IWord) :
    s.hostWriteImem i w = s := if_neg fun hc => h hc.1

theorem hostWriteImem_estate (i : Idx) (w : IWord) : (s.hostWriteImem i w).estate = s.estate := by
  unfold State.hostWriteImem
  split <;> rfl

theorem hostWriteProgLen_idle (h : s.estate = .idle) (v : Idx) :
    s.hostWriteProgLen v = { s with progLen := v } := if_pos h

theorem hostWriteProgLen_of_not_idle (h : s.estate ≠ .idle) (v : Idx) :
    s.hostWriteProgLen v = s := if_neg h

theorem hostWriteEntry_idle (h : s.estate = .idle) (v : Idx) :
    s.hostWriteEntry v = { s with entry := v } := if_pos h

theorem hostWriteEntry_of_not_idle (h : s.estate ≠ .idle) (v : Idx) :
    s.hostWriteEntry v = s := if_neg h

/-- Outside IDLE the three writes of program load are ignored (70 R232, R239). -/
theorem event_load_of_not_idle (h : s.estate ≠ .idle) :
    (∀ i w, event (.host (.writeImem i w)) s = .next s) ∧
      ∀ v, event (.host (.writeReg 0x05 v)) s = .next s ∧
        event (.host (.writeReg 0x04 v)) s = .next s := by
  refine ⟨fun i w => ?_, fun v => ⟨?_, ?_⟩⟩
  · rw [event_writeImem, hostWriteImem_of_not_idle h]
  · rw [event_writeProgLen, hostWriteProgLen_of_not_idle h]
  · rw [event_writeEntry, hostWriteEntry_of_not_idle h]

end

/-- Settles O52: in IDLE the write is `State.imemWrite` or one field's; elsewhere it is ignored. -/
theorem programLoadInIdle : Obligations.ProgramLoadInIdle := by
  refine fun s => ⟨fun h => ⟨fun i w hi => ⟨s.imemWrite i w, ?_, ?_, fun j hj => ?_, rfl⟩,
    fun v => ⟨?_, ?_⟩⟩, event_load_of_not_idle⟩
  · rw [event_writeImem, hostWriteImem_idle h hi]
  · simp [imemWord_imemWrite]
  · simp [imemWord_imemWrite, hj]
  · rw [event_writeProgLen, hostWriteProgLen_idle h]
  · rw [event_writeEntry, hostWriteEntry_idle h]

/-! ### START and RUN (70 R233, R234) -/

section
variable {s : State} {w : BitVec 32}

theorem event_start (hw : w.extractLsb' 0 3 = 1#3) (s : State) :
    event (.host (.writeReg 0x00 w)) s = hostStart s := by
  rw [event_writeCtrl]
  simp [writeCtrl, hw]

theorem event_run (hw : w.extractLsb' 0 3 = 2#3) (s : State) :
    event (.host (.writeReg 0x00 w)) s = hostRun s := by
  rw [event_writeCtrl]
  simp [writeCtrl, hw]

theorem event_step (hw : w.extractLsb' 0 3 = 4#3) (s : State) :
    event (.host (.writeReg 0x00 w)) s = hostStep s := by
  rw [event_writeCtrl]
  simp [writeCtrl, hw]

theorem hostStart_written (h : s.estate = .idle) (hu : firstUnwritten s = none) :
    hostStart s = .next { s with cs := [⟨[], s.entry⟩], estate := .paused } := by
  simp only [hostStart, h, hu]
  rfl

theorem hostStart_unwritten {k : Nat} (h : s.estate = .idle) (hu : firstUnwritten s = some k) :
    hostStart s = .refused (.unwrittenWord (BitVec.ofNat 16 k)) := by
  simp [hostStart, h, hu]

theorem hostStart_of_not_idle (h : s.estate ≠ .idle) : hostStart s = .next s := by
  unfold hostStart
  split
  · exact absurd ‹_› h
  · rfl

theorem hostRun_paused (h : s.estate = .paused) :
    hostRun s = .next { s with estate := .running } := by
  simp [hostRun, h, State.setEstate]

theorem hostRun_of_not_paused (h : s.estate ≠ .paused) : hostRun s = .next s := by
  unfold hostRun
  split
  · exact absurd ‹_› h
  · rfl

theorem hostStep_of_not_paused (h : s.estate ≠ .paused) : hostStep s = .next s := by
  unfold hostStep
  split
  · exact absurd ‹_› h
  · rfl

/-- The launch check reports the lowest unwritten index (70 R240). -/
theorem firstUnwritten_le {i : Idx} (hi : i < s.progLen) (hnone : imemWord s i = none) :
    ∃ k, firstUnwritten s = some k ∧ k ≤ i.toNat ∧ cellsGet s.imem k = none := by
  cases hu : firstUnwritten s with
  | none =>
    obtain ⟨x, hx⟩ := (firstUnwritten_eq_none s).1 hu i hi
    simp [hnone] at hx
  | some k =>
    obtain ⟨hk, -, hlow⟩ := List.find?_range_eq_some.1 hu
    refine ⟨k, rfl, ?_, by simpa using hk⟩
    by_contra hlt
    simpa [show cellsGet s.imem i.toNat = none from hnone] using hlow i.toNat (by omega)

/-- A number below 65536 is kept by the 16 bits of an index. -/
theorem toNat_ofNat_of_index {k : Nat} (h : k < 65536) : (BitVec.ofNat 16 k).toNat = k :=
  (BitVec.toNat_ofNat k 16).trans (Nat.mod_eq_of_lt h)

/-- START of a program with an unwritten word is refused by an index no higher than that word's. -/
theorem hostStart_refused (h : s.estate = .idle) {i : Idx} (hi : i < s.progLen)
    (hnone : imemWord s i = none) :
    ∃ j : Idx, j ≤ i ∧ imemWord s j = none ∧ hostStart s = .refused (.unwrittenWord j) := by
  obtain ⟨k, hu, hk, hcell⟩ := firstUnwritten_le hi hnone
  have hto := toNat_ofNat_of_index (Nat.lt_of_le_of_lt hk i.isLt)
  refine ⟨BitVec.ofNat 16 k, ?_, ?_, hostStart_unwritten h hu⟩
  · rwa [BitVec.le_def, hto]
  · rwa [imemWord, hto]

end

/-- No act of the host but reset takes an engine out of RUNNING: the writes and commands with an
effect need IDLE or PAUSED. -/
theorem HostEffect.estate_running {a : HostAction} {s t : State} (h : HostEffect a s t)
    (hs : s.estate = .running) (ha : a ≠ .reset) : t.estate = .running := by
  cases h with
  | reset => exact absurd rfl ha
  | nothing _ _ _ _ ht => exact ht.estate.trans hs
  | imem _ _ _ h | entry _ _ h | progLen _ _ h | start _ _ _ h | run _ _ _ h | step _ _ _ _ h =>
    simp [h] at hs

/-- Settles O53: the two commands in each ENGINE_STATE, the launch check between START's two
answers, and `HostEffect.estate_running`. -/
theorem startAndRunCommands : Obligations.StartAndRunCommands := by
  refine ⟨fun w hw s => ?_, fun w hw s => ?_, fun a s t hs ha h => ?_⟩
  · rw [event_start hw]
    exact ⟨fun h => ⟨fun hall => hostStart_written h ((firstUnwritten_eq_none s).2 hall),
      fun _ => hostStart_refused h⟩, hostStart_of_not_idle⟩
  · rw [event_run hw]
    exact ⟨hostRun_paused, hostRun_of_not_paused⟩
  · obtain ⟨r, hr⟩ := event_host h
    exact (hostAct_effect hr).estate_running hs fun he => ha he

/-! ### STEP (70 R235) -/

section
variable {s t : State}

/-- A step from PAUSED or RUNNING ends in HALTED exactly where a current HALT was executed. -/
theorem engineStep_halted_iff (ha : Active s) (h : engineStep s = .next t) :
    t.estate = .halted ↔ ∃ code, CurrentInstr s (.halt code) ∧ exec (.halt code) s = .next t := by
  constructor
  · intro ht
    rcases engineStep_cases h with ⟨c, ip, -, rfl⟩ | ⟨i, hi, hx, hC⟩
    · cases ht
    · rcases hC.estate with hs | ⟨code, rfl, -⟩
      · exact absurd (hs ▸ ht) ha.not_halted
      · exact ⟨code, hi, hx⟩
  · rintro ⟨code, ⟨f, rest, hcs, -⟩, hx⟩
    rw [exec_halt code hcs] at hx
    cases hx
    rfl

/-- A step from PAUSED or RUNNING ends in FAULTED exactly where it entered a fault. -/
theorem engineStep_faulted_iff (ha : Active s) (h : engineStep s = .next t) :
    t.estate = .faulted ↔ t = emptyRecord s ∨
      ∃ f rest c, s.cs = f :: rest ∧ c ≠ .none ∧ t = faultRecord s c f.ip := by
  constructor
  · intro ht
    rcases engineStep_next h with ⟨-, ht'⟩ | ⟨f, rest, hcs, ⟨c, hc, ht'⟩ | ⟨_, _, -, -, -, -, hE⟩⟩
    · exact .inl ht'
    · exact .inr ⟨f, rest, c, hcs, hc, ht'⟩
    · exact absurd ht ((hE.completes hcs).not_faulted ha.not_faulted)
  · rintro (rfl | ⟨f, rest, c, -, -, rfl⟩) <;> rfl

end

/-- Settles O54: STEP in PAUSED is `engineStep`, whose ends are those of `engineStep_halted_iff` and
`engineStep_faulted_iff`. -/
theorem stepCommand : Obligations.StepCommand := by
  refine fun s => ⟨fun w hw => ?_, fun t hs h => ⟨?_, ?_, engineStep_faulted_iff (.inr hs) h⟩⟩
  · rw [event_step hw]
    exact ⟨hostStep_paused, hostStep_of_not_paused⟩
  · rcases engineStep_estate h with ht | ht | ht
    · exact .inr (.inr (ht.trans hs))
    · exact .inl ht
    · exact .inr (.inl ht)
  · rw [engineStep_halted_iff (.inr hs) h]
    constructor
    · rintro ⟨code, ⟨f, rest, hcs, hfetch⟩, hx⟩
      exact ⟨f, rest, code, hcs, hfetch, hx⟩
    · rintro ⟨f, rest, code, hcs, hfetch, hx⟩
      exact ⟨code, ⟨f, rest, hcs, hfetch⟩, hx⟩

/-! ### Writes that are not legal (70 R239) -/

/-- A write of CTRL that is no legal command changes nothing. -/
theorem writeCtrl_illegal {s : State} {w : BitVec 32}
    (h : w.extractLsb' 0 3 = 1#3 ∧ s.estate ≠ .idle ∨
      w.extractLsb' 0 3 = 2#3 ∧ s.estate ≠ .paused ∨
      w.extractLsb' 0 3 = 4#3 ∧ s.estate ≠ .paused ∨
      w.extractLsb' 0 3 ∉ ([1, 2, 4] : List (BitVec 3))) :
    writeCtrl s w = .next s := by
  rw [← event_writeCtrl]
  rcases h with ⟨hw, h⟩ | ⟨hw, h⟩ | ⟨hw, h⟩ | hw
  · rw [event_start hw, hostStart_of_not_idle h]
  · rw [event_run hw, hostRun_of_not_paused h]
  · rw [event_step hw, hostStep_of_not_paused h]
  · rcases writeCtrl_cases s w with ⟨hw', -⟩ | ⟨hw', -⟩ | ⟨hw', -⟩ | ⟨-, h⟩
    · simp [hw'] at hw
    · simp [hw'] at hw
    · simp [hw'] at hw
    · rw [event_writeCtrl, h]

/-- A write of a read-only or reserved register changes nothing. -/
theorem event_writeReg_readOnly {n : BitVec 8} (h0 : n ≠ 0x00) (h4 : n ≠ 0x04) (h5 : n ≠ 0x05)
    (w : BitVec 32) (s : State) : event (.host (.writeReg n w)) s = .next s := by
  rcases writeHostReg_cases s n w with ⟨h, -⟩ | ⟨h, -⟩ | ⟨h, -⟩ | ⟨-, -, -, h⟩
  · exact absurd h h0
  · exact absurd h h4
  · exact absurd h h5
  · simp [event, hostAct, withDone, h]

/-- Settles O58: the illegal commands, the program load outside IDLE, and the registers without a
write. -/
theorem illegalHostWritesIgnored : Obligations.IllegalHostWritesIgnored := by
  refine fun s => ⟨fun w h => ?_, fun h w => ((event_load_of_not_idle h).2 w).symm,
    fun h => (event_load_of_not_idle h).1, fun n w h0 h4 h5 => event_writeReg_readOnly h0 h4 h5 w s⟩
  rw [event_writeCtrl, writeCtrl_illegal h]

/-! ### The lifecycle (70 R236) -/

/-- The lifecycle's table for one event from `s` to `t` (70 R236). -/
def Transition (e : Event) (s t : State) : Prop :=
  (e = .host .reset ∧ t.estate = .idle) ∨
  (e ≠ .host .reset ∧ t.estate = s.estate) ∨
  (∃ w, e = .host (.writeReg 0x00 w) ∧ w.extractLsb' 0 3 = 1#3 ∧ s.estate = .idle ∧
    t.estate = .paused) ∨
  (∃ w, e = .host (.writeReg 0x00 w) ∧ w.extractLsb' 0 3 = 2#3 ∧ s.estate = .paused ∧
    t.estate = .running) ∨
  (∃ w, e = .host (.writeReg 0x00 w) ∧ w.extractLsb' 0 3 = 4#3 ∧ s.estate = .paused ∧
    (t.estate = .halted ∨ t.estate = .faulted)) ∨
  (e = .engine ∧ s.estate = .running ∧ (t.estate = .halted ∨ t.estate = .faulted))

section
variable {e : Event} {s t : State}

theorem transition_step (hT : TakesStep e s) (h : engineStep s = .next t) : Transition e s t := by
  rcases engineStep_estate h with ht | ht
  · refine .inr (.inl ⟨?_, ht⟩)
    rintro rfl
    simp [TakesStep] at hT
  · rcases hT with ⟨he, hs⟩ | ⟨w, he, hw, hs⟩
    · exact .inr (.inr (.inr (.inr (.inr ⟨he, hs, ht⟩))))
    · exact .inr (.inr (.inr (.inr (.inl ⟨w, he, hw, hs, ht⟩))))

theorem HostEffect.transition {a : HostAction} (h : HostEffect a s t) :
    Transition (.host a) s t := by
  cases h with
  | reset => exact .inl ⟨rfl, rfl⟩
  | nothing _ _ _ ha ht => exact .inr (.inl ⟨fun he => ha (Event.host.inj he), ht.estate⟩)
  | imem | entry | progLen => exact .inr (.inl ⟨nofun, rfl⟩)
  | start w _ hw hs => exact .inr (.inr (.inl ⟨w, rfl, hw, hs, rfl⟩))
  | run w _ hw hs => exact .inr (.inr (.inr (.inl ⟨w, rfl, hw, hs, rfl⟩)))
  | step w _ _ hw hs ht => exact transition_step (.inr ⟨w, rfl, hw, hs⟩) ht

theorem transition_event (h : event e s = .next t) : Transition e s t := by
  cases e with
  | engine =>
    obtain ⟨hs, ht⟩ := step_next h
    exact transition_step (.inl ⟨rfl, hs⟩) ht
  | host a =>
    obtain ⟨r, hr⟩ := event_host h
    exact (hostAct_effect hr).transition

theorem fetchWord_eq_some {i : Idx} {w : IWord} (h : fetchWord s i = some w) :
    i < s.progLen ∧ imemWord s i = some w := by
  unfold fetchWord at h
  split at h
  · exact ⟨‹_›, h⟩
  · cases h

/-- The step runs the current instruction (40_dispatch R103). -/
theorem engineStep_currentInstr {i : Instr} (h : CurrentInstr s i) : engineStep s = exec i s := by
  obtain ⟨f, rest, hcs, hfetch⟩ := h
  obtain ⟨hlt, hw⟩ := fetchWord_eq_some hfetch
  rw [engineStep_fetched hcs hlt hw, decode_encode]

/-- A pointer past the program, or an illegal word, ends the run in FAULTED (40_dispatch R102,
R103). -/
theorem engineStep_of_no_instr {f : Frame} {rest : List Frame} (hcs : s.cs = f :: rest)
    (h : s.progLen ≤ f.ip ∨ ∃ w r, fetchWord s f.ip = some w ∧ decode w = .error r) :
    ∃ t, engineStep s = .next t ∧ t.estate = .faulted := by
  by_cases hip : s.progLen ≤ f.ip
  · exact ⟨_, engineStep_invalidIp hcs hip, rfl⟩
  · obtain ⟨w, r, hfetch, hd⟩ := h.resolve_left hip
    obtain ⟨hlt, hw⟩ := fetchWord_eq_some hfetch
    rw [engineStep_fetched hcs hlt hw, hd]
    exact ⟨_, rfl, rfl⟩

/-- A current instruction that is no HALT leaves ENGINE_STATE or enters a fault with the current
frame's pointer. -/
theorem exec_estate_of_ne_halt {i : Instr} (hi : CurrentInstr s i) (hne : ∀ code, i ≠ .halt code)
    (h : exec i s = .next t) :
    t.estate = s.estate ∨ t.estate = .faulted ∧ ∃ k f rest, s.cs = f :: rest ∧ k ≠ .none ∧
      t = faultRecord s k f.ip := by
  obtain ⟨f, rest, hcs, -⟩ := hi
  obtain ⟨u, hu, hA⟩ := exec_answers i s
  obtain rfl : t = u := by simpa [h] using hu
  rcases hA with ⟨hnil, -⟩ | ⟨f, rest, hcs, ⟨c, hc, rfl⟩ | hE⟩
  · simp [hnil] at hcs
  · exact .inr ⟨rfl, c, f, rest, hcs, hc.ne_none, rfl⟩
  · exact .inl ((hE.completes hcs).estate.resolve_right fun ⟨code, hi, _⟩ => hne code hi)

theorem Ended.writeCtrl (h : Ended s) (w : BitVec 32) : writeCtrl s w = .next s := by
  have hpaused : s.estate ≠ .paused := fun hp => h.not_active (.inr hp)
  rcases writeCtrl_cases s w with ⟨-, hcmd⟩ | ⟨-, hcmd⟩ | ⟨-, hcmd⟩ | ⟨-, hcmd⟩
  · exact hcmd.trans (hostStart_of_not_idle h.not_idle)
  · exact hcmd.trans (hostRun_of_not_paused hpaused)
  · exact hcmd.trans (hostStep_of_not_paused hpaused)
  · exact hcmd

/-- A write of program load in IDLE leaves IDLE. -/
theorem event_load_idle (h : s.estate = .idle) :
    (∀ i w, ∃ t, event (.host (.writeImem i w)) s = .next t ∧ t.estate = .idle) ∧
      ∀ n ∈ [0x04#8, 0x05#8], ∀ w,
        ∃ t, event (.host (.writeReg n w)) s = .next t ∧ t.estate = .idle := by
  refine ⟨fun i w => ⟨_, event_writeImem i w s, (hostWriteImem_estate i w).trans h⟩, ?_⟩
  simp only [List.forall_mem_cons]
  refine ⟨fun w => ⟨_, event_writeEntry w s, ?_⟩, fun w => ⟨_, event_writeProgLen w s, ?_⟩, nofun⟩
  · rw [hostWriteEntry_idle h]
    exact h
  · rw [hostWriteProgLen_idle h]
    exact h

end

/-- Settles O55: `transition_event` is the table, and each row of it happens by the lemma about its
command or about the step it takes. -/
theorem lifecycleTransitions : Obligations.LifecycleTransitions := by
  refine ⟨fun _ _ _ => transition_event, fun e s t hs he h => Ended.onlyDraws hs h he,
    fun s => ⟨_, rfl, rfl⟩, fun s => event_load_idle, fun s w hs hw hall => ?_,
    fun s w hs hw => ?_, fun e s hT => ?_, fun s w hs => ?_⟩
  · have hwritten := (firstUnwritten_eq_none s).2 hall
    exact ⟨_, (event_start hw s).trans (hostStart_written hs hwritten), rfl⟩
  · exact ⟨_, (event_run hw s).trans (hostRun_paused hs), rfl⟩
  · rw [event_takesStep hT]
    refine ⟨fun code hi => ?_, fun hnil => ⟨_, engineStep_empty hnil, rfl⟩,
      fun f rest hcs => engineStep_of_no_instr hcs,
      fun i t hi hne hx =>
        ⟨(engineStep_currentInstr hi).trans hx, exec_estate_of_ne_halt hi hne hx⟩⟩
    have ⟨f, rest, hcs, _⟩ := hi
    exact ⟨_, (engineStep_currentInstr hi).trans (exec_halt code hcs), rfl⟩
  · rw [event_writeCtrl, Ended.writeCtrl hs w]

end Sys2Proof.Machine
end

section
/-! PROOFS. The host's reads (70 R237, R238): the registers' bits, what the ports show outside
RUNNING, and that no read has an effect. -/

namespace Sys2Proof.Machine

/-! ### The registers (70 R237)

A field of a register is a part of the concatenation that makes the register. -/

section
variable (s : State)

theorem statusReg_estate : (statusReg s).extractLsb' 0 3 = estateCode s.estate :=
  BitVec.extractLsb'_append_eq_right

theorem statusReg_halted : (statusReg s).getLsbD 3 = s.halted := by
  simp only [statusReg, BitVec.getLsbD_append]
  simp

theorem statusReg_reserved : (statusReg s).extractLsb' 4 28 = 0 :=
  calc (statusReg s).extractLsb' 4 28
      = ((0 : BitVec 28) ++ BitVec.ofBool s.halted).extractLsb' 1 28 :=
        BitVec.extractLsb'_append_eq_of_le (by decide)
    _ = 0 := BitVec.extractLsb'_append_eq_left

theorem faultReg_cause : (faultReg s).extractLsb' 0 8 = causeCode s.faultCause :=
  BitVec.extractLsb'_append_eq_right

theorem faultReg_ipv : (faultReg s).getLsbD 8 = s.faultIpv := by
  simp only [faultReg, BitVec.getLsbD_append]
  simp

theorem faultReg_reserved : (faultReg s).extractLsb' 9 7 = 0 :=
  calc (faultReg s).extractLsb' 9 7
      = (s.faultIp ++ (0 : BitVec 7) ++ BitVec.ofBool s.faultIpv).extractLsb' 1 7 :=
        BitVec.extractLsb'_append_eq_of_le (by decide)
    _ = (s.faultIp ++ (0 : BitVec 7)).extractLsb' 0 7 :=
        BitVec.extractLsb'_append_eq_of_le (by decide)
    _ = 0 := BitVec.extractLsb'_append_eq_right

theorem faultReg_ip : (faultReg s).extractLsb' 16 16 = s.faultIp :=
  calc (faultReg s).extractLsb' 16 16
      = (s.faultIp ++ (0 : BitVec 7) ++ BitVec.ofBool s.faultIpv).extractLsb' 8 16 :=
        BitVec.extractLsb'_append_eq_of_le (by decide)
    _ = (s.faultIp ++ (0 : BitVec 7)).extractLsb' 7 16 :=
        BitVec.extractLsb'_append_eq_of_le (by decide)
    _ = s.faultIp := BitVec.extractLsb'_append_eq_left

/-- A 16-bit register has its value in [15:0] and 0 above. -/
theorem zero_append_eq_setWidth (v : BitVec 16) : (0 : BitVec 16) ++ v = v.setWidth 32 :=
  (BitVec.setWidth_eq_append (by decide)).symm

theorem callDepthReg_reserved : (callDepthReg s).extractLsb' 17 15 = 0 :=
  BitVec.extractLsb'_append_eq_left

theorem callDepthReg_toNat (h : s.cs.length < 131072) :
    (callDepthReg s).toNat = s.cs.length := by
  simp only [callDepthReg, BitVec.toNat_append]
  simpa using h

theorem readOutsideRun_of_not_running {s : State} (h : s.estate ≠ .running) (w : BitVec 32) :
    readOutsideRun s w = (w, s) := if_neg h

theorem readHostReg_reserved {n : BitVec 8} (h : 0x07#8 ≤ n) : readHostReg s n = (0, s) := by
  replace h : 7 ≤ n.toNat := h
  unfold readHostReg
  split
  case h_7 => rfl
  all_goals omega

end

/-- Settles O56: outside RUNNING a read shows the register's word, and its fields are the parts the
word is put together from. -/
theorem hostRegisterLayout : Obligations.HostRegisterLayout := by
  intro s h
  have shows := readOutsideRun_of_not_running h
  have shows16 (v : BitVec 16) : readOutsideRun s (0#16 ++ v) = (v.setWidth 32, s) :=
    zero_append_eq_setWidth v ▸ shows _
  exact ⟨rfl, ⟨statusReg s, rfl, statusReg_estate s, statusReg_halted s, statusReg_reserved s⟩,
    ⟨faultReg s, shows _, faultReg_cause s, faultReg_ipv s, faultReg_reserved s, faultReg_ip s⟩,
    shows16 _, shows16 _, shows16 _,
    ⟨callDepthReg s, shows _, callDepthReg_reserved s, callDepthReg_toNat s⟩,
    fun n hn => readHostReg_reserved s hn⟩

/-! ### The ports outside RUNNING (70 R237, R238) -/

section
variable {s : State}

theorem readGlobalPort_of_not_running (h : s.estate ≠ .running) (a : Idx) :
    readGlobalPort s a = (globalRead s a, s) := if_neg h

theorem readImemPort_written (h : s.estate ≠ .running) {i : Idx} {w : IWord} (hi : i ≠ 0xFFFF#16)
    (hw : imemWord s i = some w) : readImemPort s i = .ok (w, s) := by
  simp [readImemPort, h, hi, hw]

/-- The FRAME port's answer is what `view` shows of the frame with `below` beneath it. -/
theorem readFramePort_frame (h : s.estate ≠ .running) {above below : List Frame} {f : Frame}
    (hcs : s.cs = above ++ f :: below) (free : BitVec 32 → HostReply)
    {view : Frame → Option HostReply} {r : HostReply} (hr : view f = some r) :
    readFramePort s below.length free view = .ok (r, s) := by
  have hf : frameAt s below.length = some f := by
    simp [frameAt, hcs]
  simp [readFramePort, h, hf, hr]

end

/-- Settles O57: `hostRead_onlyDraws`, each port's answer outside RUNNING, and STATUS, whose read
asks nothing of ENGINE_STATE. -/
theorem hostReadsHaveNoEffect : Obligations.HostReadsHaveNoEffect := by
  refine ⟨fun a s t r hreg himem hreset => hostRead_onlyDraws hreset hreg himem,
    fun s h => ⟨fun a => ?_, fun i w hi hw => ?_, fun above below f hcs => ⟨?_, ?_, ?_⟩⟩,
    fun s h => ⟨statusReg s, rfl, ?_⟩⟩
  · simp only [hostAct, readGlobalPort_of_not_running h]
  · simp only [hostAct, readImemPort_written h hi hw, Except.map, ofRead]
  · exact congrArg ofRead (readFramePort_frame h hcs _ rfl)
  · exact congrArg ofRead (readFramePort_frame h hcs _ rfl)
  · intro upper lower v hf
    exact congrArg ofRead (readFramePort_frame h hcs _ (by simp [hf]))
  · rw [statusReg_estate, h]
    rfl

end Sys2Proof.Machine
end

section
/-! PROOFS. The boot sequence (70 R240): reset, the load of a list of words, and the launch. -/

namespace Sys2Proof.Machine

/-- A list of events that answers passes its state on to the events after it. -/
theorem events_append {es : List Event} {s u : State} (h : events es s = .next u)
    (fs : List Event) : events (es ++ fs) s = events fs u := by
  induction es generalizing s with
  | nil =>
    cases h
    rfl
  | cons e es ih =>
    simp only [List.cons_append, events] at h ⊢
    split at h
    · exact ih h
    · cases h
    · cases h

/-- The host's writes of a list of words from the index `k` up (70 R240). -/
def loadEvents (program : List IWord) (k : Nat) : List Event :=
  (program.zipIdx k).map fun p => .host (.writeImem (BitVec.ofNat 16 p.2) p.1)

theorem loadEvents_cons (w : IWord) (program : List IWord) (k : Nat) :
    loadEvents (w :: program) k =
      .host (.writeImem (BitVec.ofNat 16 k) w) :: loadEvents program (k + 1) := rfl

/-- What the boot does after the load of `n` words: PROG_LEN, ENTRY, START and RUN (70 R240). -/
def launchEvents (n : Nat) (entry : Idx) : List Event :=
  [.host (.writeReg 0x05 (BitVec.ofNat 32 n)), .host (.writeReg 0x04 (entry.setWidth 32)),
    .host (.writeReg 0x00 1), .host (.writeReg 0x00 2)]

theorem bootEvents_eq (program : List IWord) (entry : Idx) :
    bootEvents program entry =
      (.host .reset :: loadEvents program 0) ++ launchEvents program.length entry := rfl

/-- The host's write of IMEM[k] in IDLE, for a `k` below 65535 (20_memory R61). -/
theorem event_writeImem_ofNat {s : State} (hs : s.estate = .idle) {k : Nat} (hk : k < 65535)
    (w : IWord) :
    event (.host (.writeImem (BitVec.ofNat 16 k) w)) s =
      .next { s with imem := cellsSet s.imem k w } := by
  have hto : (BitVec.ofNat 16 k).toNat = k := toNat_ofNat_of_index (by omega)
  have hne : BitVec.ofNat 16 k ≠ 0xFFFF#16 := fun h => by
    rw [h] at hto
    exact absurd hto (Nat.ne_of_gt hk)
  rw [event_writeImem, hostWriteImem_idle hs hne, State.imemWrite, hto]

/-- The load writes IMEM alone: the list's words from `k` up, and none beneath `k`. -/
theorem events_load (program : List IWord) {k : Nat} {s : State} (hs : s.estate = .idle)
    (hk : k + program.length ≤ 65535) :
    ∃ m, events (loadEvents program k) s = .next { s with imem := m } ∧
      (∀ i < k, cellsGet m i = cellsGet s.imem i) ∧
        ∀ j < program.length, cellsGet m (k + j) = program[j]? := by
  induction program generalizing k s with
  | nil => exact ⟨s.imem, rfl, fun _ _ => rfl, nofun⟩
  | cons w program ih =>
    rw [List.length_cons] at hk
    obtain ⟨m, hm, hbelow, hwords⟩ :=
      ih (k := k + 1) (s := { s with imem := cellsSet s.imem k w }) hs (by omega)
    refine ⟨m, ?_, fun i hi => ?_, fun j hj => ?_⟩
    · rw [loadEvents_cons, events_cons (event_writeImem_ofNat hs (by omega) w), hm]
    · rw [hbelow i (by omega), cellsGet_set, if_neg (by omega)]
    · cases j with
      | zero =>
        rw [Nat.add_zero, hbelow k (by omega), cellsGet_set, if_pos rfl, List.getElem?_cons_zero]
      | succ j =>
        rw [show k + (j + 1) = k + 1 + j by omega, hwords j (by simpa using hj),
          List.getElem?_cons_succ]

/-- A launch in IDLE with the program's words written starts the run at ENTRY. -/
theorem events_launch {s : State} (hs : s.estate = .idle) {n : Nat} (entry : Idx)
    (hw : ∀ i : Idx, i < BitVec.ofNat 16 n → ∃ w, imemWord s i = some w) :
    events (launchEvents n entry) s =
      .next { s with progLen := BitVec.ofNat 16 n, entry := entry, cs := [⟨[], entry⟩],
                     estate := .running } := by
  have hlen : (BitVec.ofNat 32 n).extractLsb' 0 16 = BitVec.ofNat 16 n := by
    rw [← BitVec.setWidth_eq_extractLsb' (by decide)]
    simp
  have hentry : (entry.setWidth 32).extractLsb' 0 16 = entry := by
    rw [← BitVec.setWidth_eq_extractLsb' (by decide)]
    simp
  have hprogLen : event (.host (.writeReg 0x05 (BitVec.ofNat 32 n))) s =
      .next { s with progLen := BitVec.ofNat 16 n } := by
    rw [event_writeProgLen, hlen, hostWriteProgLen_idle hs]
  have hloaded : event (.host (.writeReg 0x04 (entry.setWidth 32)))
      { s with progLen := BitVec.ofNat 16 n } =
      .next { s with progLen := BitVec.ofNat 16 n, entry := entry } := by
    rw [event_writeEntry, hentry, hostWriteEntry_idle (by exact hs)]
  have hstart : event (.host (.writeReg 0x00 1))
      { s with progLen := BitVec.ofNat 16 n, entry := entry } =
      .next { s with progLen := BitVec.ofNat 16 n, entry := entry, cs := [⟨[], entry⟩],
                     estate := .paused } :=
    (event_start rfl _).trans (hostStart_written hs ((firstUnwritten_eq_none _).2 hw))
  rw [launchEvents, events_cons hprogLen, events_cons hloaded, events_cons hstart,
    events_cons ((event_run rfl _).trans (hostRun_paused rfl))]
  rfl

/-- The boot ends in the reset state but for the program, the frame at ENTRY and RUNNING. -/
theorem events_boot (s : State) {program : List IWord} (entry : Idx)
    (hlen : program.length ≤ 65535) :
    ∃ m, events (bootEvents program entry) s =
        .next { s.hostReset with
          imem := m, progLen := BitVec.ofNat 16 program.length, entry := entry,
          cs := [⟨[], entry⟩], estate := .running } ∧
      ∀ j < program.length, cellsGet m j = program[j]? := by
  obtain ⟨m, hm, -, hwords⟩ := events_load program (k := 0) (s := s.hostReset) rfl (by omega)
  simp only [Nat.zero_add] at hwords
  refine ⟨m, ?_, hwords⟩
  rw [bootEvents_eq, events_append ((events_cons rfl _).trans hm)]
  refine events_launch rfl entry fun i hi => ?_
  rw [BitVec.lt_def, toNat_ofNat_of_index (by omega)] at hi
  exact ⟨program[i.toNat], (hwords _ hi).trans (List.getElem?_eq_getElem hi)⟩

/-- Settles O59: `events_boot` names the state, in which PROG_LEN is the list's length and every
index below it holds the list's word. -/
theorem bootStartsTheProgram : Obligations.BootStartsTheProgram := by
  intro s program entry hlen
  obtain ⟨m, hboot, hwords⟩ := events_boot s entry hlen
  have hto : (BitVec.ofNat 16 program.length).toNat = program.length :=
    toNat_ofNat_of_index (by omega)
  refine ⟨_, hboot, rfl, rfl, rfl, hto, fun _ => rfl, rfl, fun i hi => ?_⟩
  rw [fetchWord_of_lt (BitVec.lt_def.2 (hi.trans_eq hto.symm))]
  exact hwords _ hi

end Sys2Proof.Machine
end
